-- ==== Sys2Proof/Word.lean ====
section
/-!
DEFINITION. The words of the muzze CORE unit: unsigned integers of a stated width (spec rule R9), bit 0
the least significant (R7), and the four register numbers of a file (R20, R21, R24).
-/

namespace Sys2Proof

/-- A scalar immediate, a pair's raw word or an entry of SEQ: 8 bits (R6, R24, R37). -/
abbrev Byte := BitVec 8

/-- A BoolVector16 raw word, also read as a Scale: 16 bits (R20). -/
abbrev Raw16 := BitVec 16

/-- A Field16x4 raw word, also read as a Chord: 64 bits (R21). -/
abbrev Raw64 := BitVec 64

/-- A chord's opaque name handle: 16 bits (R30). -/
abbrev Name16 := BitVec 16

/-- A register number of a file of four; which file (b, f or p) the command says (R20, R21, R24, R65). -/
inductive RegNo where
  | r0
  | r1
  | r2
  | r3
  deriving DecidableEq, Repr

end Sys2Proof
end

