-- ==== Sys2Proof/Config.lean ====
section
/-!
DEFINITION. The unit's parameters, at the values the spec fixes (R5) or decides (R6). None is left
open, and the spec treats no behaviour as "any value" (93_implementation_defined.md), so there is no
free value here.
-/

namespace Sys2Proof.Config

/-- Positions of a BoolVector16, fields of a Field16x4, degrees of a chord (R5). -/
abbrev slots : Nat := 16

/-- Bits of one field of a Field16x4 (R5, R25). -/
abbrev fieldBits : Nat := 4

/-- Entries of the sequence buffer SEQ (R6, R37). -/
abbrev seqEntries : Nat := 32

/-- The largest interval of a scale, hence the largest running total (R5, R6). -/
abbrev maxInterval : Nat := 16

/-- The largest degree number of a chord (R5). -/
abbrev maxDegree : Nat := 16

/-- The largest accidental code; the smallest is 1 (R5, R158). -/
abbrev maxAccidental : Nat := 4

/-- The largest pitch, an unsigned 8-bit value (R5, R132). -/
abbrev maxPitch : Nat := 255

end Sys2Proof.Config
end

