-- ==== Sys2Proof/Syntax.lean ====
section
/-!
DEFINITION. The command set MZC-1: one constructor per row of spec/opcode_table.json (R2, R65), with
exactly the operands the row's format uses (R63). The operand of BFROMRAW and FFROMRAW that travels on
DIN stands in the command (R61, R69; log entry 1). Immediates are unsigned and as wide as their field,
so that a value outside a legal range can be carried (R64).
-/

namespace Sys2Proof

/-- A command of MZC-1. -/
inductive Instr where
  /-- R80: load `bd` with a raw word. -/
  | bfromraw (bd : RegNo) (raw : Raw16)
  /-- R81: report the raw word of `bs`. -/
  | btoraw (bs : RegNo)
  /-- R82: report bit `index` of `bs`. -/
  | bget (bs : RegNo) (index : Byte)
  /-- R83: the sixteen bits of `bs`. -/
  | biter (bs : RegNo)
  /-- R84: the positions set in `bs`. -/
  | bidxt (bs : RegNo)
  /-- R85: the positions clear in `bs`. -/
  | bidxf (bs : RegNo)
  /-- R86: start a BoolVector16 (or scale) builder in `bd`. -/
  | bempty (bd : RegNo)
  /-- R87: set bit `index` in the builder `bd`. -/
  | bsetidx (bd : RegNo) (index : Byte)
  /-- R88: finish the builder `bd`. -/
  | bbuild (bd : RegNo)
  /-- R89: copy a finished BoolVector16. -/
  | bmov (bd bs : RegNo)
  /-- R100: load `fd` with a raw word. -/
  | ffromraw (fd : RegNo) (raw : Raw64)
  /-- R101: report the raw word of `fs`. -/
  | ftoraw (fs : RegNo)
  /-- R102: report field `index` of `fs`. -/
  | fget (fs : RegNo) (index : Byte)
  /-- R103: `fd` becomes `fs` with field `index` holding `value` masked to 4 bits. -/
  | fset (fd fs : RegNo) (index value : Byte)
  /-- R104: the sixteen fields of `fs`. -/
  | fiter (fs : RegNo)
  /-- R105: start a Field16x4 builder in `fd`. -/
  | fempty (fd : RegNo)
  /-- R106: set field `index` in the builder `fd`. -/
  | fbset (fd : RegNo) (index value : Byte)
  /-- R107: finish the builder `fd`. -/
  | fbuild (fd : RegNo)
  /-- R108: copy a finished Field16x4 with its name. -/
  | fmov (fd fs : RegNo)
  /-- R120: pack two 4-bit values. -/
  | ppack (pd : RegNo) (first second : Byte)
  /-- R121: report the low nibble. -/
  | pfirst (ps : RegNo)
  /-- R122: report the high nibble. -/
  | psecond (ps : RegNo)
  /-- R123: report the raw byte. -/
  | ptoraw (ps : RegNo)
  /-- R124: copy a pair. -/
  | pmov (pd ps : RegNo)
  /-- R130: the intervals of the scale in `bs`. -/
  | sintervals (bs : RegNo)
  /-- R131: the steps of the scale in `bs`. -/
  | ssteps (bs : RegNo)
  /-- R132: the pitches of the scale in `bs` from `root`. -/
  | sapply (bs : RegNo) (root : Byte)
  /-- R133: add interval `n` to the scale builder `bd`. -/
  | ssetint (bd : RegNo) (n : Byte)
  /-- R134: add a step of `delta` to the scale builder `bd`. -/
  | saddstep (bd : RegNo) (delta : Byte)
  /-- R150: start a chord builder in `fd` with degree 1 natural. -/
  | cwithroot (fd : RegNo) (name : Name16)
  /-- R151: give degree `degree` of the chord builder `fd` the accidental `code`. -/
  | csetdeg (fd : RegNo) (degree code : Byte)
  /-- R152: the (degree number, code) pairs of the chord in `fs`. -/
  | cdegrees (fs : RegNo)
  /-- R153: report the name handle of `fs`. -/
  | cname (fs : RegNo)
  /-- R154: decode an accidental code. -/
  | accdec (code : Byte)
  /-- R155: decode a degree number. -/
  | degdec (n : Byte)
  deriving DecidableEq, Repr

end Sys2Proof
end

