-- ==== Sys2Proof/Decode.lean ====
section
/-!
DEFINITION. The command word (R61 to R63), the opcode map (R65), the decoder (R66 to R72) and the
encoder. Decoding is total on any (CW, DIN) and rejects by name.
-/

namespace Sys2Proof

/-- R61: a command is a 32-bit command word and a 64-bit operand. -/
structure Command where
  cw : BitVec 32
  din : BitVec 64
  deriving DecidableEq, Repr

/-- R62: the fields of CW; `n16` lies over `a` and `b8`. -/
structure Fields where
  op : BitVec 8
  rd : BitVec 2
  rs : BitVec 2
  z : BitVec 4
  a : Byte
  b8 : Byte
  deriving DecidableEq, Repr

/-- R63: the nine formats. -/
inductive Format where
  | d
  | s
  | ds
  | sa
  | da
  | dab
  | dsab
  | dn
  | a
  deriving DecidableEq, Repr

/-- Why a word is no command. Both fault ILLEGAL_COMMAND with `CW[31:24]`. -/
inductive Illegal where
  /-- R67: the opcode is not one of the 35. -/
  | reservedOpcode (op : BitVec 8)
  /-- R66: a bit the opcode's format fixes at 0 is 1. -/
  | fixedBitSet (op : BitVec 8)
  deriving DecidableEq, Repr

/-- The three register files (R39). -/
inductive RegFileName where
  | b
  | f
  | p
  deriving DecidableEq, Repr

/-- R64, R65, R70: what an operand of the assembler spelling is, and where it goes. -/
inductive OperandKind where
  /-- A destination register of the file, in `rd`. -/
  | dst (file : RegFileName)
  /-- A source register of the file, in `rs`. -/
  | src (file : RegFileName)
  /-- A scalar immediate, in `a`. -/
  | immA
  /-- A scalar immediate, in `b8`. -/
  | immB
  /-- An accidental code, in `a`; it may be written by name. -/
  | codeA
  /-- An accidental code, in `b8`; it may be written by name. -/
  | codeB
  /-- A name handle, in `n16`. -/
  | name16
  /-- A 16-bit raw word, on DIN. -/
  | raw16
  /-- A 64-bit raw word, on DIN. -/
  | raw64
  deriving DecidableEq, Repr

/-- A row of the opcode map (R65). -/
structure TableRow where
  op : BitVec 8
  mnemonic : String
  format : Format
  operands : List OperandKind
  deriving DecidableEq, Repr

/-! ## Fields of the command word -/

/-- R62: the fields of a command word. -/
def Fields.ofWord (w : BitVec 32) : Fields where
  op := w.extractLsb' 24 8
  rd := w.extractLsb' 22 2
  rs := w.extractLsb' 20 2
  z := w.extractLsb' 16 4
  a := w.extractLsb' 8 8
  b8 := w.extractLsb' 0 8

/-- R62: the command word with these fields. -/
def Fields.word (f : Fields) : BitVec 32 :=
  f.op ++ f.rd ++ f.rs ++ f.z ++ f.a ++ f.b8

/-- R62: the name handle occupies the `a` and `b8` positions, `n16 = a * 256 + b8`. -/
def Fields.n16 (f : Fields) : Name16 := f.a ++ f.b8

/-- The register a 2-bit field names (R50: always in range). -/
def RegNo.ofBits (v : BitVec 2) : RegNo :=
  match v.toNat with
  | 0 => .r0
  | 1 => .r1
  | 2 => .r2
  | _ => .r3

/-- The 2-bit field that names a register. -/
def RegNo.bits : RegNo → BitVec 2
  | .r0 => 0
  | .r1 => 1
  | .r2 => 2
  | .r3 => 3

/-- The destination register of a word. -/
def Fields.dst (f : Fields) : RegNo := RegNo.ofBits f.rd

/-- The source register of a word. -/
def Fields.src (f : Fields) : RegNo := RegNo.ofBits f.rs

/-- `CW[31:24]`, what an illegal command reports (R66, R67). -/
def Command.op (c : Command) : BitVec 8 := (Fields.ofWord c.cw).op

/-! ## Formats -/

/-- R63: the formats that use `rd`. -/
def Format.usesRd : Format → Bool
  | .d | .ds | .da | .dab | .dsab | .dn => true
  | .s | .sa | .a => false

/-- R63: the formats that use `rs`. -/
def Format.usesRs : Format → Bool
  | .s | .ds | .sa | .dsab => true
  | .d | .da | .dab | .dn | .a => false

/-- R63: the formats that use bits 15:8 (as `a`, or as the high half of `n16`). -/
def Format.usesA : Format → Bool
  | .sa | .da | .dab | .dsab | .dn | .a => true
  | .d | .s | .ds => false

/-- R63: the formats that use bits 7:0 (as `b8`, or as the low half of `n16`). -/
def Format.usesB : Format → Bool
  | .dab | .dsab | .dn => true
  | .d | .s | .ds | .sa | .da | .a => false

/-- R63: the `mask` column, the bits a format fixes. -/
def Format.mask : Format → BitVec 32
  | .d => 0xFF3FFFFF
  | .s => 0xFFCFFFFF
  | .ds => 0xFF0FFFFF
  | .sa => 0xFFCF00FF
  | .da => 0xFF3F00FF
  | .dab => 0xFF3F0000
  | .dsab => 0xFF0F0000
  | .dn => 0xFF3F0000
  | .a => 0xFFFF00FF

/-- R66: `z` and every field the format does not use are zero. -/
def Format.fixedZero (fmt : Format) (f : Fields) : Bool :=
  f.z == 0 && (fmt.usesRd || f.rd == 0) && (fmt.usesRs || f.rs == 0)
    && (fmt.usesA || f.a == 0) && (fmt.usesB || f.b8 == 0)

/-! ## The opcode map -/

/-- R65: the rows of BoolVector16. -/
def rowsBool : List TableRow := [
  ⟨0x10, "BFROMRAW", .d, [.dst .b, .raw16]⟩,
  ⟨0x11, "BTORAW", .s, [.src .b]⟩,
  ⟨0x12, "BGET", .sa, [.src .b, .immA]⟩,
  ⟨0x13, "BITER", .s, [.src .b]⟩,
  ⟨0x14, "BIDXT", .s, [.src .b]⟩,
  ⟨0x15, "BIDXF", .s, [.src .b]⟩,
  ⟨0x16, "BEMPTY", .d, [.dst .b]⟩,
  ⟨0x17, "BSETIDX", .da, [.dst .b, .immA]⟩,
  ⟨0x18, "BBUILD", .d, [.dst .b]⟩,
  ⟨0x19, "BMOV", .ds, [.dst .b, .src .b]⟩]

/-- R65: the rows of Field16x4. -/
def rowsField : List TableRow := [
  ⟨0x20, "FFROMRAW", .d, [.dst .f, .raw64]⟩,
  ⟨0x21, "FTORAW", .s, [.src .f]⟩,
  ⟨0x22, "FGET", .sa, [.src .f, .immA]⟩,
  ⟨0x23, "FSET", .dsab, [.dst .f, .src .f, .immA, .immB]⟩,
  ⟨0x24, "FITER", .s, [.src .f]⟩,
  ⟨0x25, "FEMPTY", .d, [.dst .f]⟩,
  ⟨0x26, "FBSET", .dab, [.dst .f, .immA, .immB]⟩,
  ⟨0x27, "FBUILD", .d, [.dst .f]⟩,
  ⟨0x28, "FMOV", .ds, [.dst .f, .src .f]⟩]

/-- R65: the rows of PackedPair4. -/
def rowsPair : List TableRow := [
  ⟨0x30, "PPACK", .dab, [.dst .p, .immA, .immB]⟩,
  ⟨0x31, "PFIRST", .s, [.src .p]⟩,
  ⟨0x32, "PSECOND", .s, [.src .p]⟩,
  ⟨0x33, "PTORAW", .s, [.src .p]⟩,
  ⟨0x34, "PMOV", .ds, [.dst .p, .src .p]⟩]

/-- R65: the rows of ScaleEncoding. -/
def rowsScale : List TableRow := [
  ⟨0x40, "SINTERVALS", .s, [.src .b]⟩,
  ⟨0x41, "SSTEPS", .s, [.src .b]⟩,
  ⟨0x42, "SAPPLY", .sa, [.src .b, .immA]⟩,
  ⟨0x43, "SSETINT", .da, [.dst .b, .immA]⟩,
  ⟨0x44, "SADDSTEP", .da, [.dst .b, .immA]⟩]

/-- R65: the rows of ChordEncoding. -/
def rowsChord : List TableRow := [
  ⟨0x50, "CWITHROOT", .dn, [.dst .f, .name16]⟩,
  ⟨0x51, "CSETDEG", .dab, [.dst .f, .immA, .codeB]⟩,
  ⟨0x52, "CDEGREES", .s, [.src .f]⟩,
  ⟨0x53, "CNAME", .s, [.src .f]⟩,
  ⟨0x54, "ACCDEC", .a, [.codeA]⟩,
  ⟨0x55, "DEGDEC", .a, [.immA]⟩]

/-- R65: the 35 commands, as spec/opcode_table.json lists them. -/
def opcodeTable : List TableRow := rowsBool ++ rowsField ++ rowsPair ++ rowsScale ++ rowsChord

/-- R63: the `match` column, the opcode in bits 31:24 and every other fixed bit 0. -/
def TableRow.matchWord (r : TableRow) : BitVec 32 := r.op ++ 0#24

/-- R63: the word is the row's command iff its fixed bits are the row's. -/
def TableRow.fits (r : TableRow) (w : BitVec 32) : Bool := w &&& r.format.mask == r.matchWord

/-! ## The decoder -/

/-- The command, if the format's fixed bits are zero (R66). -/
def accept (fmt : Format) (f : Fields) (i : Instr) : Except Illegal Instr :=
  if fmt.fixedZero f then .ok i else .error (.fixedBitSet f.op)

/-- R65 to R69, R72: the command with these fields and this DIN. BFROMRAW keeps `DIN[15:0]`, FFROMRAW
all of DIN, and every other command ignores DIN. -/
def decodeFields (f : Fields) (din : BitVec 64) : Except Illegal Instr :=
  match f.op.toNat with
  | 0x10 => accept .d f (.bfromraw f.dst (din.setWidth 16))
  | 0x11 => accept .s f (.btoraw f.src)
  | 0x12 => accept .sa f (.bget f.src f.a)
  | 0x13 => accept .s f (.biter f.src)
  | 0x14 => accept .s f (.bidxt f.src)
  | 0x15 => accept .s f (.bidxf f.src)
  | 0x16 => accept .d f (.bempty f.dst)
  | 0x17 => accept .da f (.bsetidx f.dst f.a)
  | 0x18 => accept .d f (.bbuild f.dst)
  | 0x19 => accept .ds f (.bmov f.dst f.src)
  | 0x20 => accept .d f (.ffromraw f.dst din)
  | 0x21 => accept .s f (.ftoraw f.src)
  | 0x22 => accept .sa f (.fget f.src f.a)
  | 0x23 => accept .dsab f (.fset f.dst f.src f.a f.b8)
  | 0x24 => accept .s f (.fiter f.src)
  | 0x25 => accept .d f (.fempty f.dst)
  | 0x26 => accept .dab f (.fbset f.dst f.a f.b8)
  | 0x27 => accept .d f (.fbuild f.dst)
  | 0x28 => accept .ds f (.fmov f.dst f.src)
  | 0x30 => accept .dab f (.ppack f.dst f.a f.b8)
  | 0x31 => accept .s f (.pfirst f.src)
  | 0x32 => accept .s f (.psecond f.src)
  | 0x33 => accept .s f (.ptoraw f.src)
  | 0x34 => accept .ds f (.pmov f.dst f.src)
  | 0x40 => accept .s f (.sintervals f.src)
  | 0x41 => accept .s f (.ssteps f.src)
  | 0x42 => accept .sa f (.sapply f.src f.a)
  | 0x43 => accept .da f (.ssetint f.dst f.a)
  | 0x44 => accept .da f (.saddstep f.dst f.a)
  | 0x50 => accept .dn f (.cwithroot f.dst f.n16)
  | 0x51 => accept .dab f (.csetdeg f.dst f.a f.b8)
  | 0x52 => accept .s f (.cdegrees f.src)
  | 0x53 => accept .s f (.cname f.src)
  | 0x54 => accept .a f (.accdec f.a)
  | 0x55 => accept .a f (.degdec f.a)
  | _ => .error (.reservedOpcode f.op)

/-- R72: decode depends on the command alone. -/
def decode (c : Command) : Except Illegal Instr := decodeFields (Fields.ofWord c.cw) c.din

/-- The command whose CW has these fields and a zero `z` (R62), and whose operand is `din`. -/
def assembled (op : BitVec 8) (rd rs : BitVec 2) (a b8 : Byte) (din : BitVec 64) : Command :=
  ⟨Fields.word ⟨op, rd, rs, 0, a, b8⟩, din⟩

/-- R62, R65: the words of a command; a field its format does not use is zero (R63), and so is the
part of DIN it ignores (R69). -/
def encode : Instr → Command
  | .bfromraw rd v => assembled 0x10 rd.bits 0 0 0 (v.setWidth 64)
  | .btoraw rs => assembled 0x11 0 rs.bits 0 0 0
  | .bget rs a => assembled 0x12 0 rs.bits a 0 0
  | .biter rs => assembled 0x13 0 rs.bits 0 0 0
  | .bidxt rs => assembled 0x14 0 rs.bits 0 0 0
  | .bidxf rs => assembled 0x15 0 rs.bits 0 0 0
  | .bempty rd => assembled 0x16 rd.bits 0 0 0 0
  | .bsetidx rd a => assembled 0x17 rd.bits 0 a 0 0
  | .bbuild rd => assembled 0x18 rd.bits 0 0 0 0
  | .bmov rd rs => assembled 0x19 rd.bits rs.bits 0 0 0
  | .ffromraw rd v => assembled 0x20 rd.bits 0 0 0 v
  | .ftoraw rs => assembled 0x21 0 rs.bits 0 0 0
  | .fget rs a => assembled 0x22 0 rs.bits a 0 0
  | .fset rd rs a b => assembled 0x23 rd.bits rs.bits a b 0
  | .fiter rs => assembled 0x24 0 rs.bits 0 0 0
  | .fempty rd => assembled 0x25 rd.bits 0 0 0 0
  | .fbset rd a b => assembled 0x26 rd.bits 0 a b 0
  | .fbuild rd => assembled 0x27 rd.bits 0 0 0 0
  | .fmov rd rs => assembled 0x28 rd.bits rs.bits 0 0 0
  | .ppack rd a b => assembled 0x30 rd.bits 0 a b 0
  | .pfirst rs => assembled 0x31 0 rs.bits 0 0 0
  | .psecond rs => assembled 0x32 0 rs.bits 0 0 0
  | .ptoraw rs => assembled 0x33 0 rs.bits 0 0 0
  | .pmov rd rs => assembled 0x34 rd.bits rs.bits 0 0 0
  | .sintervals rs => assembled 0x40 0 rs.bits 0 0 0
  | .ssteps rs => assembled 0x41 0 rs.bits 0 0 0
  | .sapply rs a => assembled 0x42 0 rs.bits a 0 0
  | .ssetint rd a => assembled 0x43 rd.bits 0 a 0 0
  | .saddstep rd a => assembled 0x44 rd.bits 0 a 0 0
  | .cwithroot rd n => assembled 0x50 rd.bits 0 (n.extractLsb' 8 8) (n.extractLsb' 0 8) 0
  | .csetdeg rd a b => assembled 0x51 rd.bits 0 a b 0
  | .cdegrees rs => assembled 0x52 0 rs.bits 0 0 0
  | .cname rs => assembled 0x53 0 rs.bits 0 0 0
  | .accdec a => assembled 0x54 0 0 a 0 0
  | .degdec a => assembled 0x55 0 0 a 0 0

/-- R65: the mnemonic of a command, as the opcode table spells it. -/
def Instr.mnemonic : Instr → String
  | .bfromraw _ _ => "BFROMRAW"
  | .btoraw _ => "BTORAW"
  | .bget _ _ => "BGET"
  | .biter _ => "BITER"
  | .bidxt _ => "BIDXT"
  | .bidxf _ => "BIDXF"
  | .bempty _ => "BEMPTY"
  | .bsetidx _ _ => "BSETIDX"
  | .bbuild _ => "BBUILD"
  | .bmov _ _ => "BMOV"
  | .ffromraw _ _ => "FFROMRAW"
  | .ftoraw _ => "FTORAW"
  | .fget _ _ => "FGET"
  | .fset _ _ _ _ => "FSET"
  | .fiter _ => "FITER"
  | .fempty _ => "FEMPTY"
  | .fbset _ _ _ => "FBSET"
  | .fbuild _ => "FBUILD"
  | .fmov _ _ => "FMOV"
  | .ppack _ _ _ => "PPACK"
  | .pfirst _ => "PFIRST"
  | .psecond _ => "PSECOND"
  | .ptoraw _ => "PTORAW"
  | .pmov _ _ => "PMOV"
  | .sintervals _ => "SINTERVALS"
  | .ssteps _ => "SSTEPS"
  | .sapply _ _ => "SAPPLY"
  | .ssetint _ _ => "SSETINT"
  | .saddstep _ _ => "SADDSTEP"
  | .cwithroot _ _ => "CWITHROOT"
  | .csetdeg _ _ _ => "CSETDEG"
  | .cdegrees _ => "CDEGREES"
  | .cname _ => "CNAME"
  | .accdec _ => "ACCDEC"
  | .degdec _ => "DEGDEC"

/-- R61, with DIN counted on from CW: bit 0 is CW's bit 0 and bit 32 is DIN's bit 0 (log entry 4).
`nbits` bits of the number `w`, the bits above them zero, read by the decoder. -/
def tableCommand (nbits w : Nat) : Command :=
  ⟨BitVec.ofNat 32 (w % 2 ^ nbits), BitVec.ofNat 64 ((w % 2 ^ nbits) / 2 ^ 32)⟩

/-- The command the decoder reads from an instruction whose bits, numbered as spec/opcode_table.json
numbers them, are `w`. -/
def decodeTableWord (nbits w : Nat) : Option Instr :=
  match decode (tableCommand nbits w) with
  | .ok i => some i
  | .error _ => none

end Sys2Proof
end

