-- ==== Sys2Proof/Machine/State.lean ====
section
/-!
DEFINITION. The unit's whole state as plain data (10_state.md, head table and R20 to R42), the list of
what the host does next, and the state after reset (R42).
-/

namespace Sys2Proof.Machine

/-- R31: the builder state of a b or f register. -/
inductive Tag where
  /-- A finished container value (encoded 0). -/
  | built
  /-- A builder's accumulated content (encoded 1). -/
  | building
  deriving DecidableEq, Repr

/-- R34: the status of the most recent command; the fourth 2-bit value is never produced. -/
inductive Status where
  /-- The command completed (0). -/
  | ok
  /-- An invalid code met at the decode boundary (1). -/
  | decodeFail
  /-- A contract violation or an illegal command; the unit is halted (2). -/
  | fault
  deriving DecidableEq, Repr

/-- R171: the fault causes. -/
inductive Cause where
  | illegalCommand
  | indexRange
  | operandRange
  | intervalRange
  | degreeRange
  | builderState
  | pitchOverflow
  deriving DecidableEq, Repr

/-- R20, R31, R32: a b register. -/
structure BCell where
  raw : Raw16
  tag : Tag
  acc : BitVec 5
  deriving DecidableEq, Repr

/-- R21, R30, R31: an f register. -/
structure FCell where
  raw : Raw64
  tag : Tag
  name : Name16
  deriving DecidableEq, Repr

/-- A file of four registers (R6). -/
structure Quad (α : Type) where
  r0 : α
  r1 : α
  r2 : α
  r3 : α
  deriving DecidableEq, Repr

/-- R199: what the host does to the unit between two steps, reading results apart (a read has no side
effect, R33, R37). -/
inductive HostEvent where
  /-- Present a command. -/
  | present (c : Command)
  /-- Assert reset (R190). -/
  | reset
  deriving DecidableEq, Repr

/-- Reasons for the machine to stop with a fault. There are none: what the spec calls a fault is a state
the unit enters (R172), and a halted unit's step leaves it as it is (R173), so both are next states
(log entry 5). Nothing raises a member of this type. -/
inductive Fault where
  deriving DecidableEq, Repr

/-- Reasons to give an instruction no meaning. -/
inductive Refusal where
  /-- The command of that mnemonic is not modelled. Raised by an arm of `exec` that has no meaning yet, of
  which there is none: safe, since the model stops where the unit goes on. -/
  | notModelled (mnemonic : String)
  deriving DecidableEq, Repr

/-- The state of the unit (10_state.md: "the following and nothing else") and, in `host`, what the host
does next. -/
structure State where
  /-- R20: the b registers. -/
  b : Quad BCell
  /-- R21: the f registers. -/
  f : Quad FCell
  /-- R24, R27: the p registers, each byte (second << 4) | first. -/
  p : Quad Byte
  /-- R33: RES. -/
  res : BitVec 64
  /-- R34: ST. -/
  st : Status
  /-- R36: FCAUSE. -/
  fcause : BitVec 4
  /-- R36: FINFO. -/
  finfo : Byte
  /-- R37: SEQ[0..31]. -/
  seq : Vector Byte 32
  /-- R37: SLEN. -/
  slen : BitVec 6
  /-- What the host does next, first event first. Host state, not unit state (R35, R198; log entry 2). -/
  host : List HostEvent
  deriving DecidableEq, Repr

/-- Four registers of one value. -/
def Quad.all {α : Type} (v : α) : Quad α := ⟨v, v, v, v⟩

/-- R42: the state after reset. The host's list is empty: no command has been given yet (log entry 3). -/
def State.reset : State where
  b := Quad.all ⟨0x0000, .built, 0⟩
  f := Quad.all ⟨0x0000000000000000, .built, 0x0000⟩
  p := Quad.all 0x00
  res := 0
  st := .ok
  fcause := 0
  finfo := 0
  seq := ⟨⟨List.replicate 32 0⟩, List.length_replicate⟩
  slen := 0
  host := []

end Sys2Proof.Machine
end

