-- ==== Sys2Proof/Machine/Operands.lean ====
section
/-!
DEFINITION. What the commands compute on values: the range tests of R64 and R177, single bits and fields
of a raw word (R22, R25, R52), field update (R115), the interval list and its differences (R131, R141).
Sums and differences are exact, on natural numbers, and narrowed at the end (R9, R14).
-/

namespace Sys2Proof.Machine

/-! ## Range tests (R64) -/

/-- A slot index is below 16 (U3). -/
def indexOk (a : Byte) : Bool := a.toNat < Config.slots

/-- An operand of pack is below 16 (R120). -/
def nibbleOk (a : Byte) : Bool := a.toNat < 2 ^ Config.fieldBits

/-- An interval, or a running total of intervals, is 1 to 16 (R133, R134). -/
def intervalOk (n : Nat) : Bool := 1 ≤ n && n ≤ Config.maxInterval

/-- A degree number is 1 to 16 (R151, R155). -/
def degreeOk (a : Byte) : Bool := 1 ≤ a.toNat && a.toNat ≤ Config.maxDegree

/-- A numeric code is a valid accidental: 1 natural, 2 flat, 3 double-flat, 4 sharp (R158). -/
def accidentalOk (c : Byte) : Bool := 1 ≤ c.toNat && c.toNat ≤ Config.maxAccidental

/-! ## Narrowing -/

/-- The byte of a number that is at most 255. -/
def byte (n : Nat) : Byte := BitVec.ofNat 8 n

/-! ## BoolVector16 (R22, R23) -/

/-- `raw[i]` as a bit. -/
def bitOf (w : Raw16) (i : Nat) : BitVec 1 := w.extractLsb' i 1

/-- `raw | (1 << i)`. -/
def withBit (w : Raw16) (i : Nat) : Raw16 := w ||| ((1 : Raw16) <<< i)

/-- The positions 0 to 15, in order. -/
def positions : List Nat := List.range Config.slots

/-- R83: the sixteen bits, position 0 first. -/
def bitsOf (w : Raw16) : List Byte := positions.map fun i => (bitOf w i).setWidth 8

/-- R84: the set positions, ascending. -/
def setPositions (w : Raw16) : List Nat := positions.filter fun i => bitOf w i == 1

/-- R85: the clear positions, ascending. -/
def clearPositions (w : Raw16) : List Nat := positions.filter fun i => bitOf w i == 0

/-! ## Field16x4 (R25, R26, R115) -/

/-- `raw[4i+3 : 4i]`. -/
def fieldOf (w : Raw64) (i : Nat) : BitVec 4 := w.extractLsb' (4 * i) 4

/-- R115: `setfield(raw, i, v)`: clear the field by XOR with its own value, then OR in `v & 0xF`. -/
def setfield (w : Raw64) (i : Nat) (v : Byte) : Raw64 :=
  let cur := fieldOf w i
  let tmp := w ^^^ (cur.setWidth 64 <<< (4 * i))
  tmp ||| ((v &&& 0xF).setWidth 64 <<< (4 * i))

/-- R104: the sixteen fields, field 0 first. -/
def fieldsOf (w : Raw64) : List Byte := positions.map fun i => (fieldOf w i).setWidth 8

/-! ## PackedPair4 (R27) -/

/-- R120: `(second << 4) | first`. -/
def packPair (first second : Byte) : Byte := (second <<< 4) ||| first

/-- R121: the low nibble. -/
def pairFirst (w : Byte) : BitVec 4 := w.extractLsb' 0 4

/-- R122: the high nibble. -/
def pairSecond (w : Byte) : BitVec 4 := w.extractLsb' 4 4

/-! ## Scales (R28, R141) -/

/-- R141: the interval list of a word, ascending, values 1 to 16. -/
def ivals (w : Raw16) : List Nat := (setPositions w).map (· + 1)

/-- First differences of a list whose predecessor is `prev`. -/
def differences (prev : Nat) : List Nat → List Nat
  | [] => []
  | n :: rest => (n - prev) :: differences n rest

/-- R131: the steps, with the implicit leading 0. -/
def stepsOf (w : Raw16) : List Nat := differences 0 (ivals w)

/-- R132: the root, then the root plus each interval. -/
def pitches (root : Nat) (w : Raw16) : List Nat := root :: (ivals w).map (root + ·)

/-- R132: no interval added to the root exceeds 255. -/
def pitchesFit (root : Nat) (w : Raw16) : Bool := (ivals w).all fun v => root + v ≤ Config.maxPitch

/-! ## Chords (R29) -/

/-- R152: for each non-zero slot, in order, its degree number and its raw value. -/
def degreePairs (w : Raw64) : List Byte :=
  positions.flatMap fun i =>
    if fieldOf w i = 0 then [] else [byte (i + 1), (fieldOf w i).setWidth 8]

end Sys2Proof.Machine
end

