-- ==== Sys2Proof/Machine/Ops.lean ====
section
/-!
DEFINITION. The operations every command is written with: the register files, the result registers,
taking a fault (R172) and failing decode (R176), and the checks of R10 and R177. A command is a chain of
checks around one completed state; a check that fails discards everything the command would have
written.
-/

namespace Sys2Proof.Machine

/-- What a step answers. -/
abbrev Result := Host.Outcome State Fault Refusal

/-! ## Register files (R20, R21, R24, R39) -/

/-- The register of a file with this number. -/
def Quad.get {α : Type} (q : Quad α) : RegNo → α
  | .r0 => q.r0
  | .r1 => q.r1
  | .r2 => q.r2
  | .r3 => q.r3

/-- The file with one register replaced. -/
def Quad.set {α : Type} (q : Quad α) (k : RegNo) (v : α) : Quad α :=
  match k with
  | .r0 => { q with r0 := v }
  | .r1 => { q with r1 := v }
  | .r2 => { q with r2 := v }
  | .r3 => { q with r3 := v }

/-- `b[k] <- v` (R10). -/
def State.setB (s : State) (k : RegNo) (v : BCell) : State := { s with b := s.b.set k v }

/-- `f[k] <- v` (R10). -/
def State.setF (s : State) (k : RegNo) (v : FCell) : State := { s with f := s.f.set k v }

/-- `p[k] <- v` (R10). -/
def State.setP (s : State) (k : RegNo) (v : Byte) : State := { s with p := s.p.set k v }

/-! ## Result registers -/

/-- `RES <- v` (R33). -/
def State.setRes (s : State) (v : BitVec 64) : State := { s with res := v }

/-- R38: the 32 entries of SEQ that hold the list, the entries beyond it 0. -/
def seqBuffer (l : List Byte) : Vector Byte 32 :=
  ⟨⟨(l ++ List.replicate 32 0).take 32⟩, by simp⟩

/-- `SEQ <- l` (R38). No command delivers more than 32 entries (R37; log entry 8). -/
def State.setSeq (s : State) (l : List Byte) : State :=
  { s with seq := seqBuffer l, slen := BitVec.ofNat 6 l.length }

/-- `ST <- v` (R34). -/
def State.setSt (s : State) (v : Status) : State := { s with st := v }

/-! ## The three outcomes of a command (R73) -/

/-- R171: the FCAUSE code of a cause. -/
def Cause.code : Cause → BitVec 4
  | .illegalCommand => 1
  | .indexRange => 2
  | .operandRange => 3
  | .intervalRange => 4
  | .degreeRange => 5
  | .builderState => 6
  | .pitchOverflow => 7

/-- R172: the state after a fault: ST, FCAUSE and FINFO are written and nothing else. -/
def State.enterFault (s : State) (c : Cause) (info : Byte) : State :=
  { s with st := .fault, fcause := c.code, finfo := info }

/-- The command ran to its end: its writes stand and `ST <- OK` (R73). -/
def complete (s : State) : Result := .next (s.setSt .ok)

/-- `raise Fault(c, info)` (R10, R172). There is no return from a fault (R175). -/
def raiseFault (c : Cause) (info : Byte) (s : State) : Result := .next (s.enterFault c info)

/-- `fail Decode` (R10, R176). -/
def failDecode (s : State) : Result := .next (s.setSt .decodeFail)

/-! ## Checks (R177); `s` is the state before the command -/

/-- R171: a register number as FINFO reports it. -/
def registerNumber (k : RegNo) : Byte := k.bits.setWidth 8

/-- `require_built(r)` (R10), for the register with this tag and number. -/
def requireBuilt (t : Tag) (k : RegNo) (s : State) (body : Result) : Result :=
  match t with
  | .built => body
  | .building => raiseFault .builderState (registerNumber k) s

/-- `require_building(r)` (R10). -/
def requireBuilding (t : Tag) (k : RegNo) (s : State) (body : Result) : Result :=
  match t with
  | .building => body
  | .built => raiseFault .builderState (registerNumber k) s

/-- The condition holds, or the command faults with this cause and value. -/
def requireElseFault (ok : Bool) (c : Cause) (info : Byte) (s : State) (body : Result) : Result :=
  if ok then body else raiseFault c info s

/-- The condition holds, or the command fails decode. -/
def requireElseDecodeFail (ok : Bool) (s : State) (body : Result) : Result :=
  if ok then body else failDecode s

end Sys2Proof.Machine
end

