-- ==== Sys2Proof/Machine/BoolVector16.lean ====
section
/-!
DEFINITION. The BoolVector16 commands (40_boolvector16.md), on the b register file. No command of this file
looks at what a bit means (R94).
-/

namespace Sys2Proof.Machine

/-- R80 BFROMRAW: total; the old content of the register is dropped unchecked. -/
def execBfromraw (rd : RegNo) (v : Raw16) (s : State) : Result :=
  complete (s.setB rd ⟨v, .built, 0⟩)

/-- R81 BTORAW. -/
def execBtoraw (rs : RegNo) (s : State) : Result :=
  requireBuilt (s.b.get rs).tag rs s <|
    complete (s.setRes ((s.b.get rs).raw.setWidth 64))

/-- R82 BGET: the builder state is checked before the index. -/
def execBget (rs : RegNo) (a : Byte) (s : State) : Result :=
  requireBuilt (s.b.get rs).tag rs s <|
    requireElseFault (indexOk a) .indexRange a s <|
      complete (s.setRes ((bitOf (s.b.get rs).raw a.toNat).setWidth 64))

/-- R83 BITER. -/
def execBiter (rs : RegNo) (s : State) : Result :=
  requireBuilt (s.b.get rs).tag rs s <|
    complete (s.setSeq (bitsOf (s.b.get rs).raw))

/-- R84 BIDXT. -/
def execBidxt (rs : RegNo) (s : State) : Result :=
  requireBuilt (s.b.get rs).tag rs s <|
    complete (s.setSeq ((setPositions (s.b.get rs).raw).map byte))

/-- R85 BIDXF. -/
def execBidxf (rs : RegNo) (s : State) : Result :=
  requireBuilt (s.b.get rs).tag rs s <|
    complete (s.setSeq ((clearPositions (s.b.get rs).raw).map byte))

/-- R86 BEMPTY: a new builder, whatever the register held. -/
def execBempty (rd : RegNo) (s : State) : Result :=
  complete (s.setB rd ⟨0x0000, .building, 0⟩)

/-- R87 BSETIDX: `tag` and `acc` are unchanged. -/
def execBsetidx (rd : RegNo) (a : Byte) (s : State) : Result :=
  requireBuilding (s.b.get rd).tag rd s <|
    requireElseFault (indexOk a) .indexRange a s <|
      complete (s.setB rd { s.b.get rd with raw := withBit (s.b.get rd).raw a.toNat })

/-- R88 BBUILD: `raw` and `acc` are unchanged; RES reports the built word. -/
def execBbuild (rd : RegNo) (s : State) : Result :=
  requireBuilding (s.b.get rd).tag rd s <|
    complete ((s.setB rd { s.b.get rd with tag := .built }).setRes ((s.b.get rd).raw.setWidth 64))

/-- R89 BMOV: the source must be Built; the destination's tag is not checked and its `acc` becomes 0. -/
def execBmov (rd rs : RegNo) (s : State) : Result :=
  requireBuilt (s.b.get rs).tag rs s <|
    complete (s.setB rd ⟨(s.b.get rs).raw, .built, 0⟩)

end Sys2Proof.Machine
end

