-- ==== Sys2Proof/Machine/Chord.lean ====
section
/-!
DEFINITION. The ChordEncoding commands (44_chord.md), on the f register file: an f register read as a Chord
is the same sixty-four bits and its name handle (R29, R30). ACCDEC and DEGDEC use no register.
-/

namespace Sys2Proof.Machine

/-- R150 CWITHROOT: degree 1 natural, every other degree absent; every handle is accepted. -/
def execCwithroot (rd : RegNo) (n : Name16) (s : State) : Result :=
  complete (s.setF rd ⟨0x0000000000000001, .building, n⟩)

/-- R151 CSETDEG: the accidental is decoded before the builder state and the degree are checked (R177). -/
def execCsetdeg (rd : RegNo) (a b : Byte) (s : State) : Result :=
  requireElseDecodeFail (accidentalOk b) s <|
    requireBuilding (s.f.get rd).tag rd s <|
      requireElseFault (degreeOk a) .degreeRange a s <|
        complete (s.setF rd { s.f.get rd with raw := setfield (s.f.get rd).raw (a.toNat - 1) b })

/-- R152 CDEGREES: the raw slot values, undecoded; it never fails decode. -/
def execCdegrees (rs : RegNo) (s : State) : Result :=
  requireBuilt (s.f.get rs).tag rs s <|
    complete (s.setSeq (degreePairs (s.f.get rs).raw))

/-- R153 CNAME. -/
def execCname (rs : RegNo) (s : State) : Result :=
  requireBuilt (s.f.get rs).tag rs s <|
    complete (s.setRes ((s.f.get rs).name.setWidth 64))

/-- R154 ACCDEC. -/
def execAccdec (a : Byte) (s : State) : Result :=
  requireElseDecodeFail (accidentalOk a) s <|
    complete (s.setRes (a.setWidth 64))

/-- R155 DEGDEC: RES is the degree number, not the slot index. -/
def execDegdec (a : Byte) (s : State) : Result :=
  requireElseDecodeFail (degreeOk a) s <|
    complete (s.setRes (a.setWidth 64))

end Sys2Proof.Machine
end

