-- ==== Sys2Proof/Machine/Field16x4.lean ====
section
/-!
DEFINITION. The Field16x4 commands (41_field16x4.md), on the f register file.
-/

namespace Sys2Proof.Machine

/-- R100 FFROMRAW: total; the name becomes 0. -/
def execFfromraw (rd : RegNo) (v : Raw64) (s : State) : Result :=
  complete (s.setF rd ⟨v, .built, 0x0000⟩)

/-- R101 FTORAW. -/
def execFtoraw (rs : RegNo) (s : State) : Result :=
  requireBuilt (s.f.get rs).tag rs s <|
    complete (s.setRes (s.f.get rs).raw)

/-- R102 FGET: the builder state is checked before the index. -/
def execFget (rs : RegNo) (a : Byte) (s : State) : Result :=
  requireBuilt (s.f.get rs).tag rs s <|
    requireElseFault (indexOk a) .indexRange a s <|
      complete (s.setRes ((fieldOf (s.f.get rs).raw a.toNat).setWidth 64))

/-- R103 FSET: the value is masked to 4 bits, never refused; the name travels with the value; the
source is read in full before the destination is written (R196). -/
def execFset (rd rs : RegNo) (a b : Byte) (s : State) : Result :=
  requireBuilt (s.f.get rs).tag rs s <|
    requireElseFault (indexOk a) .indexRange a s <|
      complete (s.setF rd ⟨setfield (s.f.get rs).raw a.toNat b, .built, (s.f.get rs).name⟩)

/-- R104 FITER: zero fields are not skipped. -/
def execFiter (rs : RegNo) (s : State) : Result :=
  requireBuilt (s.f.get rs).tag rs s <|
    complete (s.setSeq (fieldsOf (s.f.get rs).raw))

/-- R105 FEMPTY: a new builder, whatever the register held. -/
def execFempty (rd : RegNo) (s : State) : Result :=
  complete (s.setF rd ⟨0x0000000000000000, .building, 0x0000⟩)

/-- R106 FBSET: the value is masked as in R103; `tag` and `name` are unchanged. -/
def execFbset (rd : RegNo) (a b : Byte) (s : State) : Result :=
  requireBuilding (s.f.get rd).tag rd s <|
    requireElseFault (indexOk a) .indexRange a s <|
      complete (s.setF rd { s.f.get rd with raw := setfield (s.f.get rd).raw a.toNat b })

/-- R107 FBUILD: `raw` and `name` are unchanged; RES reports the built word. -/
def execFbuild (rd : RegNo) (s : State) : Result :=
  requireBuilding (s.f.get rd).tag rd s <|
    complete ((s.setF rd { s.f.get rd with tag := .built }).setRes (s.f.get rd).raw)

/-- R108 FMOV: the source must be Built; the destination's tag is not checked. -/
def execFmov (rd rs : RegNo) (s : State) : Result :=
  requireBuilt (s.f.get rs).tag rs s <|
    complete (s.setF rd ⟨(s.f.get rs).raw, .built, (s.f.get rs).name⟩)

end Sys2Proof.Machine
end

