-- ==== Sys2Proof/Machine/PackedPair4.lean ====
section
/-!
DEFINITION. The PackedPair4 commands (42_packedpair4.md), on the p register file, which has no tags (R24).
There is no command that loads a p register from DIN (R126).
-/

namespace Sys2Proof.Machine

/-- R120 PPACK: an operand above 15 faults, the first before the second; nothing is masked. -/
def execPpack (rd : RegNo) (a b : Byte) (s : State) : Result :=
  requireElseFault (nibbleOk a) .operandRange a s <|
    requireElseFault (nibbleOk b) .operandRange b s <|
      complete (s.setP rd (packPair a b))

/-- R121 PFIRST. -/
def execPfirst (rs : RegNo) (s : State) : Result :=
  complete (s.setRes ((pairFirst (s.p.get rs)).setWidth 64))

/-- R122 PSECOND. -/
def execPsecond (rs : RegNo) (s : State) : Result :=
  complete (s.setRes ((pairSecond (s.p.get rs)).setWidth 64))

/-- R123 PTORAW. -/
def execPtoraw (rs : RegNo) (s : State) : Result :=
  complete (s.setRes ((s.p.get rs).setWidth 64))

/-- R124 PMOV. -/
def execPmov (rd rs : RegNo) (s : State) : Result :=
  complete (s.setP rd (s.p.get rs))

end Sys2Proof.Machine
end

