-- ==== Sys2Proof/Machine/Scale.lean ====
section
/-!
DEFINITION. The ScaleEncoding commands (43_scale.md), on the b register file: a b register read as a Scale
is the same sixteen bits (R28). A scale builder starts with BEMPTY and ends with BBUILD (R137).
-/

namespace Sys2Proof.Machine

/-- R130 SINTERVALS. -/
def execSintervals (rs : RegNo) (s : State) : Result :=
  requireBuilt (s.b.get rs).tag rs s <|
    complete (s.setSeq ((ivals (s.b.get rs).raw).map byte))

/-- R131 SSTEPS. -/
def execSsteps (rs : RegNo) (s : State) : Result :=
  requireBuilt (s.b.get rs).tag rs s <|
    complete (s.setSeq ((stepsOf (s.b.get rs).raw).map byte))

/-- R132 SAPPLY: a sum above 255 faults and writes no part of SEQ; it is never wrapped. -/
def execSapply (rs : RegNo) (a : Byte) (s : State) : Result :=
  requireBuilt (s.b.get rs).tag rs s <|
    requireElseFault (pitchesFit a.toNat (s.b.get rs).raw) .pitchOverflow a s <|
      complete (s.setSeq ((pitches a.toNat (s.b.get rs).raw).map byte))

/-- R133 SSETINT: `acc` is not changed. -/
def execSsetint (rd : RegNo) (a : Byte) (s : State) : Result :=
  requireBuilding (s.b.get rd).tag rd s <|
    requireElseFault (intervalOk a.toNat) .intervalRange a s <|
      complete (s.setB rd { s.b.get rd with raw := withBit (s.b.get rd).raw (a.toNat - 1) })

/-- R134 SADDSTEP: the new total is an exact sum; the fault reports the delta, not the total. -/
def execSaddstep (rd : RegNo) (a : Byte) (s : State) : Result :=
  let t := (s.b.get rd).acc.toNat + a.toNat
  requireBuilding (s.b.get rd).tag rd s <|
    requireElseFault (intervalOk t) .intervalRange a s <|
      complete (s.setB rd
        { s.b.get rd with raw := withBit (s.b.get rd).raw (t - 1), acc := BitVec.ofNat 5 t })

end Sys2Proof.Machine
end

