-- ==== Sys2Proof/Machine/Dispatch.lean ====
section
/-!
DEFINITION. One arm per command: the meaning is what the command's rule does in a unit that is not
halted. Whether the unit is halted, and whether the word is a command at all, is decided before
(R73; Machine/Port.lean).
-/

namespace Sys2Proof.Machine

def exec (i : Instr) (s : State) : Host.Outcome State Fault Refusal :=
  match i with
  | .bfromraw rd v => Sys2Proof.Machine.execBfromraw rd v s
  | .btoraw rs => Sys2Proof.Machine.execBtoraw rs s
  | .bget rs a => Sys2Proof.Machine.execBget rs a s
  | .biter rs => Sys2Proof.Machine.execBiter rs s
  | .bidxt rs => Sys2Proof.Machine.execBidxt rs s
  | .bidxf rs => Sys2Proof.Machine.execBidxf rs s
  | .bempty rd => Sys2Proof.Machine.execBempty rd s
  | .bsetidx rd a => Sys2Proof.Machine.execBsetidx rd a s
  | .bbuild rd => Sys2Proof.Machine.execBbuild rd s
  | .bmov rd rs => Sys2Proof.Machine.execBmov rd rs s
  | .ffromraw rd v => Sys2Proof.Machine.execFfromraw rd v s
  | .ftoraw rs => Sys2Proof.Machine.execFtoraw rs s
  | .fget rs a => Sys2Proof.Machine.execFget rs a s
  | .fset rd rs a b => Sys2Proof.Machine.execFset rd rs a b s
  | .fiter rs => Sys2Proof.Machine.execFiter rs s
  | .fempty rd => Sys2Proof.Machine.execFempty rd s
  | .fbset rd a b => Sys2Proof.Machine.execFbset rd a b s
  | .fbuild rd => Sys2Proof.Machine.execFbuild rd s
  | .fmov rd rs => Sys2Proof.Machine.execFmov rd rs s
  | .ppack rd a b => Sys2Proof.Machine.execPpack rd a b s
  | .pfirst rs => Sys2Proof.Machine.execPfirst rs s
  | .psecond rs => Sys2Proof.Machine.execPsecond rs s
  | .ptoraw rs => Sys2Proof.Machine.execPtoraw rs s
  | .pmov rd rs => Sys2Proof.Machine.execPmov rd rs s
  | .sintervals rs => Sys2Proof.Machine.execSintervals rs s
  | .ssteps rs => Sys2Proof.Machine.execSsteps rs s
  | .sapply rs a => Sys2Proof.Machine.execSapply rs a s
  | .ssetint rd a => Sys2Proof.Machine.execSsetint rd a s
  | .saddstep rd a => Sys2Proof.Machine.execSaddstep rd a s
  | .cwithroot rd n => Sys2Proof.Machine.execCwithroot rd n s
  | .csetdeg rd a b => Sys2Proof.Machine.execCsetdeg rd a b s
  | .cdegrees rs => Sys2Proof.Machine.execCdegrees rs s
  | .cname rs => Sys2Proof.Machine.execCname rs s
  | .accdec a => Sys2Proof.Machine.execAccdec a s
  | .degdec a => Sys2Proof.Machine.execDegdec a s

end Sys2Proof.Machine
end

