-- ==== Sys2Proof/Machine/Port.lean ====
section
/-!
DEFINITION. The command port: what the unit does with one command (R73) and with reset (R190), and how
the host's next event is taken.
-/

namespace Sys2Proof.Machine

/-- R73: one command. A halted unit changes nothing, whatever the command (R173); an illegal word faults
ILLEGAL_COMMAND with `CW[31:24]` (R66, R67); otherwise the command's rule is run. -/
def present (c : Command) (s : State) : Result :=
  match s.st with
  | .fault => .next s
  | .ok | .decodeFail =>
    match decode c with
    | .ok i => exec i s
    | .error _ => raiseFault .illegalCommand c.op s

/-- R190: reset puts every part of the unit at its value of R42. The host's list is the host's. -/
def applyReset (s : State) : State := { State.reset with host := s.host }

/-- One event of the host (R199). -/
def runEvent (e : HostEvent) (s : State) : Result :=
  match e with
  | .present c => present c s
  | .reset => .next (applyReset s)

/-- Take the host's next event off its list (R35: the position advances by one for every command
presented, whatever becomes of it) and do it. With no event left the run has ended (R198) and nothing
happens in the unit (R178; log entry 3). -/
def serve (s : State) : Result :=
  match s.host with
  | [] => .next s
  | e :: rest => runEvent e { s with host := rest }

end Sys2Proof.Machine
end

