-- ==== Sys2Proof/Machine/Step.lean ====
section
/-!
DEFINITION. One step of the machine, and how a command is put where the next step takes it.
-/

namespace Sys2Proof.Machine

/-- One step: the host's next event (R73, R190). -/
def step (s : State) : Host.Outcome State Fault Refusal := serve s

/-- The state in which the host presents next the command whose bits, numbered as spec/opcode_table.json
numbers them, are `w`; whatever it was going to do comes after (log entries 2, 4). A halted unit stays
halted (R173). -/
def State.withFetchWord (s : State) (nbits w : Nat) : State :=
  { s with host := .present (tableCommand nbits w) :: s.host }

end Sys2Proof.Machine
end

