-- ==== Sys2Proof/Machine/Assembler.lean ====
section
/-!
DEFINITION. The assembler spelling (R70) and the six pseudo-instructions (R71): from one line of a listing
to the command it stands for. No part of the machine uses this file.
-/

namespace Sys2Proof.Asm

/-- An operand as a listing writes it (R70). -/
inductive Operand where
  /-- `b0`, `f3`, `p1`: a file and a number. -/
  | reg (file : RegFileName) (n : Nat)
  /-- `#` and a number. -/
  | imm (n : Nat)
  /-- `#` and an accidental's name; the number is its code. -/
  | code (n : Nat)
  /-- `=` and a number, the DIN operand. -/
  | data (n : Nat)
  deriving DecidableEq, Repr

/-- A line without its comment: a mnemonic in capitals and its operands. -/
structure Line where
  mnemonic : String
  operands : List Operand
  deriving DecidableEq, Repr

/-- Why the assembler rejects a line. R70 names the rejection of an immediate, a raw16 and a register number
that are too large; the others are the model's choice (DESIGN CHOICE, log entry 9). -/
inductive Reject where
  /-- The mnemonic is neither a command nor a pseudo-instruction. -/
  | unknownMnemonic
  /-- Not the command's operands, in kind, file, order or number. -/
  | wrongOperands
  /-- A register number above 3. -/
  | registerNumber
  /-- An immediate above 255, or above 65535 for `n16`. -/
  | immediateWidth
  /-- A DIN operand above 0xFFFF for a raw16 (R70), or above 64 bits for a raw64 (DESIGN CHOICE, log
  entry 9: R70 says nothing of a raw64 that does not fit DIN). -/
  | dataWidth
  /-- A line that is not of the spelling at all. -/
  | badSpelling
  deriving DecidableEq, Repr

/-! ## From a line to a command -/

/-- R71: the command a mnemonic expands to; a command's own mnemonic stands for itself. -/
def expand (m : String) : String :=
  match m with
  | "SFROMRAW" => "BFROMRAW"
  | "STORAW" => "BTORAW"
  | "SEMPTY" => "BEMPTY"
  | "SBUILD" => "BBUILD"
  | "CBUILD" => "FBUILD"
  | "CTORAW" => "FTORAW"
  | other => other

/-- R65, R71: the table row of a mnemonic. -/
def rowOf (m : String) : Option TableRow := opcodeTable.find? fun r => r.mnemonic == expand m

/-- A value, if it is at most `most`. -/
def fit (most n : Nat) (e : Reject) (v : α) : Except Reject α :=
  if n ≤ most then .ok v else .error e

/-- Put one operand into the command (R64, R70). That a raw64 above 64 bits is rejected is the model's
choice (DESIGN CHOICE, log entry 9). -/
def place (k : OperandKind) (o : Operand) (f : Fields) (din : BitVec 64) :
    Except Reject (Fields × BitVec 64) :=
  match k, o with
  | .dst file, .reg file' n =>
    if file = file' then fit 3 n .registerNumber ({ f with rd := BitVec.ofNat 2 n }, din)
    else .error .wrongOperands
  | .src file, .reg file' n =>
    if file = file' then fit 3 n .registerNumber ({ f with rs := BitVec.ofNat 2 n }, din)
    else .error .wrongOperands
  | .immA, .imm n | .codeA, .imm n | .codeA, .code n =>
    fit 255 n .immediateWidth ({ f with a := BitVec.ofNat 8 n }, din)
  | .immB, .imm n | .codeB, .imm n | .codeB, .code n =>
    fit 255 n .immediateWidth ({ f with b8 := BitVec.ofNat 8 n }, din)
  | .name16, .imm n =>
    fit 65535 n .immediateWidth
      ({ f with a := BitVec.ofNat 8 (n / 256), b8 := BitVec.ofNat 8 n }, din)
  | .raw16, .data n => fit 0xFFFF n .dataWidth (f, BitVec.ofNat 64 n)
  | .raw64, .data n => fit 0xFFFFFFFFFFFFFFFF n .dataWidth (f, BitVec.ofNat 64 n)
  | _, _ => .error .wrongOperands

/-- Put the operands into the command, in order. -/
def placeAll : List OperandKind → List Operand → Fields → BitVec 64 → Except Reject Command
  | [], [], f, din => .ok ⟨f.word, din⟩
  | k :: ks, o :: os, f, din =>
    match place k o f din with
    | .ok (f', din') => placeAll ks os f' din'
    | .error e => .error e
  | _, _, _, _ => .error .wrongOperands

/-- R70, R71: the command of a line. An immediate that is merely outside a command's legal range is
assembled: it faults when it runs (R64). -/
def assemble (l : Line) : Except Reject Command :=
  match rowOf l.mnemonic with
  | some r => placeAll r.operands l.operands ⟨r.op, 0, 0, 0, 0, 0⟩ 0
  | none => .error .unknownMnemonic

/-! ## From the characters of a listing to a line (log entry 9 says what the spelling leaves open) -/

/-- A line up to its comment. -/
def uncomment (cs : List Char) : List Char := cs.takeWhile (· ≠ ';')

/-- Without the spaces at either end. -/
def trim (cs : List Char) : List Char :=
  ((cs.dropWhile (· = ' ')).reverse.dropWhile (· = ' ')).reverse

/-- The pieces between commas. -/
def splitCommas : List Char → List (List Char)
  | [] => [[]]
  | ',' :: cs => [] :: splitCommas cs
  | c :: cs =>
    match splitCommas cs with
    | p :: ps => (c :: p) :: ps
    | [] => [[c]]

/-- The digits of a hexadecimal number, each at the place that is its value; the first ten are those of a
decimal number. -/
def digitRow : List Char := "0123456789ABCDEF".toList

/-- The value of a digit; a letter may be small (log entry 9). -/
def digitValue (c : Char) : Option Nat := digitRow.idxOf? c.toUpper

/-- The digits of a number in this base, read after the value so far. -/
def digits (base : Nat) (sofar : Nat) : List Char → Option Nat
  | [] => some sofar
  | c :: cs =>
    match digitValue c with
    | some d => if d < base then digits base (base * sofar + d) cs else none
    | none => none

/-- A decimal number, or `0x` and a hexadecimal one. -/
def number : List Char → Option Nat
  | [] => none
  | ['0', 'x'] => none
  | '0' :: 'x' :: cs => digits 16 0 cs
  | cs => digits 10 0 cs

/-- R70: the names of the accidental codes. -/
def accidentalName (cs : List Char) : Option Nat :=
  match String.ofList cs with
  | "natural" => some 1
  | "flat" => some 2
  | "dflat" => some 3
  | "sharp" => some 4
  | _ => none

/-- One operand. -/
def operand (cs : List Char) : Option Operand :=
  match cs with
  | 'b' :: n => (digits 10 0 n).bind fun k => if n = [] then none else some (.reg .b k)
  | 'f' :: n => (digits 10 0 n).bind fun k => if n = [] then none else some (.reg .f k)
  | 'p' :: n => (digits 10 0 n).bind fun k => if n = [] then none else some (.reg .p k)
  | '=' :: n => (number n).map .data
  | '#' :: n =>
    match accidentalName n with
    | some c => some (.code c)
    | none => (number n).map .imm
  | _ => none

/-- The operands of a line, in order. -/
def operandList (cs : List Char) : Option (List Operand) :=
  (splitCommas cs).mapM fun p => operand (trim p)

/-- One line of a listing: `none` if it holds no command (blank, or a comment alone), else the command
or why the line is rejected. -/
def assembleText (text : String) : Option (Except Reject Command) :=
  let cs := trim (uncomment text.toList)
  if cs = [] then none
  else
    let mnemonic := String.ofList (cs.takeWhile (· ≠ ' '))
    match operandList (cs.dropWhile (· ≠ ' ')) with
    | some os => some (assemble ⟨mnemonic, os⟩)
    | none => some (.error .badSpelling)

end Sys2Proof.Asm
end

