-- ==== Sys2Proof/Machine/Flags.lean ====
section
/-!
DEFINITION. ST is the unit's only flag (R34): no carry, zero, sign or overflow flag exists and no command
reads ST as an operand. Its writers are the three outcomes of Ops.lean; here are its 2-bit code and the
status output that follows it, the 1-bit code of a tag, and what the host can read.
-/

namespace Sys2Proof.Machine

/-- R34: the 2-bit value of ST; 3 is never produced. -/
def Status.code : Status → BitVec 2
  | .ok => 0
  | .decodeFail => 1
  | .fault => 2

/-- R31: the 1-bit value of a tag. -/
def Tag.code : Tag → BitVec 1
  | .built => 0
  | .building => 1

/-- R173: the unit is halted. -/
def State.halted (s : State) : Bool := s.st == .fault

/-- R179: the status output `fault_o`, 1 exactly when ST is FAULT. -/
def State.faultO (s : State) : BitVec 1 := BitVec.ofBool s.halted

/-- R51, R199: everything the host can read, at any time between steps and with no side effect. -/
structure HostView where
  res : BitVec 64
  st : BitVec 2
  fcause : BitVec 4
  finfo : Byte
  slen : BitVec 6
  seq : Vector Byte 32
  faultO : BitVec 1
  deriving DecidableEq, Repr

/-- What the host reads now. The tags, `acc` and the registers are not in it (R31, R32, R199). -/
def State.hostView (s : State) : HostView where
  res := s.res
  st := s.st.code
  fcause := s.fcause
  finfo := s.finfo
  slen := s.slen
  seq := s.seq
  faultO := s.faultO

end Sys2Proof.Machine
end

