-- ==== Sys2Proof/WellFormed.lean ====
section
/-!
DEFINITION. What a well-formed command is (R63, R66, R67). A command word is well-formed when it is one
of the 35 commands with every bit its format fixes at 0 equal to 0. A term of `Instr` names registers
and immediates that fit their fields by their types (R50, R64), so the check on a term is that the word
it is encoded as is well-formed; that a value lies outside a command's legal range does not make the
command ill-formed, it makes it fault when it runs (R64, R70).
-/

namespace Sys2Proof

/-- R66, R67, R72: the word is exactly one of the 35 commands. -/
def Command.wellFormed (c : Command) : Bool :=
  match decode c with
  | .ok _ => true
  | .error _ => false

/-- The instruction is encoded as a well-formed command. -/
def Instr.wellFormed (i : Instr) : Bool := (encode i).wellFormed

end Sys2Proof
end

