-- ==== Sys2Proof/Safety.lean ====
section
/-!
DEFINITION. The terms claims use: which register a command names as its destination, what a run and a
good run are (R198), and the invariant of the state every step keeps. Values are read here by plain
arithmetic on natural numbers, not by the operations of the machine, so that a claim is a second reading
of a rule.
-/

namespace Sys2Proof

/-- R50: the number 0 to 3 of a register. -/
def RegNo.num : RegNo → Nat
  | .r0 => 0
  | .r1 => 1
  | .r2 => 2
  | .r3 => 3

/-- R62: the command word with these fields and a zero `z`, as a number. -/
def cwNumber (op rd rs a b8 : Nat) : Nat :=
  op * 2 ^ 24 + rd * 2 ^ 22 + rs * 2 ^ 20 + a * 2 ^ 8 + b8

/-- R62, R69: the word with these fields is this command, whatever DIN holds. -/
def WordOf (i : Instr) (op rd rs a b8 : Nat) : Prop :=
  ∀ din, decode ⟨BitVec.ofNat 32 (cwNumber op rd rs a b8), din⟩ = .ok i

/-- R20: the b register a command may write. -/
def Instr.bDest : Instr → Option RegNo
  | .bfromraw rd _ | .bempty rd | .bsetidx rd _ | .bbuild rd | .bmov rd _ | .ssetint rd _
  | .saddstep rd _ => some rd
  | .btoraw _ | .bget _ _ | .biter _ | .bidxt _ | .bidxf _ | .ffromraw _ _ | .ftoraw _
  | .fget _ _ | .fset _ _ _ _ | .fiter _ | .fempty _ | .fbset _ _ _ | .fbuild _ | .fmov _ _
  | .ppack _ _ _ | .pfirst _ | .psecond _ | .ptoraw _ | .pmov _ _ | .sintervals _ | .ssteps _
  | .sapply _ _ | .cwithroot _ _ | .csetdeg _ _ _ | .cdegrees _ | .cname _ | .accdec _
  | .degdec _ => none

/-- R21: the f register a command may write. -/
def Instr.fDest : Instr → Option RegNo
  | .ffromraw rd _ | .fset rd _ _ _ | .fempty rd | .fbset rd _ _ | .fbuild rd | .fmov rd _
  | .cwithroot rd _ | .csetdeg rd _ _ => some rd
  | .bfromraw _ _ | .btoraw _ | .bget _ _ | .biter _ | .bidxt _ | .bidxf _ | .bempty _
  | .bsetidx _ _ | .bbuild _ | .bmov _ _ | .ftoraw _ | .fget _ _ | .fiter _ | .ppack _ _ _
  | .pfirst _ | .psecond _ | .ptoraw _ | .pmov _ _ | .sintervals _ | .ssteps _ | .sapply _ _
  | .ssetint _ _ | .saddstep _ _ | .cdegrees _ | .cname _ | .accdec _ | .degdec _ => none

/-- R24: the p register a command may write. -/
def Instr.pDest : Instr → Option RegNo
  | .ppack rd _ _ | .pmov rd _ => some rd
  | .bfromraw _ _ | .btoraw _ | .bget _ _ | .biter _ | .bidxt _ | .bidxf _ | .bempty _
  | .bsetidx _ _ | .bbuild _ | .bmov _ _ | .ffromraw _ _ | .ftoraw _ | .fget _ _ | .fset _ _ _ _
  | .fiter _ | .fempty _ | .fbset _ _ _ | .fbuild _ | .fmov _ _ | .pfirst _ | .psecond _
  | .ptoraw _ | .sintervals _ | .ssteps _ | .sapply _ _ | .ssetint _ _ | .saddstep _ _
  | .cwithroot _ _ | .csetdeg _ _ _ | .cdegrees _ | .cname _ | .accdec _ | .degdec _ => none

/-- R33: the commands that produce a scalar result. -/
def Instr.producesRes : Instr → Bool
  | .btoraw _ | .bget _ _ | .bbuild _ | .ftoraw _ | .fget _ _ | .fbuild _ | .pfirst _ | .psecond _
  | .ptoraw _ | .cname _ | .accdec _ | .degdec _ => true
  | .bfromraw _ _ | .biter _ | .bidxt _ | .bidxf _ | .bempty _ | .bsetidx _ _ | .bmov _ _
  | .ffromraw _ _ | .fset _ _ _ _ | .fiter _ | .fempty _ | .fbset _ _ _ | .fmov _ _
  | .ppack _ _ _ | .pmov _ _ | .sintervals _ | .ssteps _ | .sapply _ _ | .ssetint _ _
  | .saddstep _ _ | .cwithroot _ _ | .csetdeg _ _ _ | .cdegrees _ => false

/-- R37: the commands that produce a sequence. -/
def Instr.producesSeq : Instr → Bool
  | .biter _ | .bidxt _ | .bidxf _ | .fiter _ | .sintervals _ | .ssteps _ | .sapply _ _
  | .cdegrees _ => true
  | .bfromraw _ _ | .btoraw _ | .bget _ _ | .bempty _ | .bsetidx _ _ | .bbuild _ | .bmov _ _
  | .ffromraw _ _ | .ftoraw _ | .fget _ _ | .fset _ _ _ _ | .fempty _ | .fbset _ _ _ | .fbuild _
  | .fmov _ _ | .ppack _ _ _ | .pfirst _ | .psecond _ | .ptoraw _ | .pmov _ _ | .ssetint _ _
  | .saddstep _ _ | .cwithroot _ _ | .csetdeg _ _ _ | .cname _ | .accdec _ | .degdec _ => false

namespace Machine

/-- R22: position `i` of a BoolVector16 is set. -/
abbrev isSet (w : Raw16) (i : Nat) : Prop := w.toNat / 2 ^ i % 2 = 1

/-- R25: the number in field `i` of a Field16x4. -/
def slot (w : Raw64) (i : Nat) : Nat := w.toNat / 16 ^ i % 16

/-- R28: interval `n` belongs to the scale. -/
abbrev inScale (w : Raw16) (n : Nat) : Prop := 1 ≤ n ∧ n ≤ 16 ∧ isSet w (n - 1)

/-- R141: the list is the interval list of the word: its members, in ascending order. -/
def IntervalList (w : Raw16) (l : List Nat) : Prop :=
  l.Pairwise (· < ·) ∧ ∀ n, n ∈ l ↔ inScale w n

/-- R37, R38: SEQ and SLEN deliver exactly this list, the entries beyond it 0. -/
def Delivers (s : State) (l : List Nat) : Prop :=
  s.slen.toNat = l.length ∧ ∀ j : Fin 32, s.seq[j].toNat = l.getD j 0

/-- The result is a completed command that delivered this list and wrote nothing but SEQ, SLEN and ST. -/
def DeliversOk (s : State) (r : Host.Outcome State Fault Refusal) (l : List Nat) : Prop :=
  ∃ t, r = .next t ∧ Delivers t l ∧ t = { s with seq := t.seq, slen := t.slen, st := .ok }

/-- R172: the state after a fault of this cause code and value. -/
def State.faulted (s : State) (cause info : Nat) : State :=
  { s with st := .fault, fcause := BitVec.ofNat 4 cause, finfo := BitVec.ofNat 8 info }

/-- R73: the state with `ST <- OK`. -/
def State.done (s : State) : State := { s with st := .ok }

/-- R42: every part of the unit is at its reset value. -/
def AtReset (s : State) : Prop :=
  (∀ k, s.b.get k = ⟨0, .built, 0⟩) ∧ (∀ k, s.f.get k = ⟨0, .built, 0⟩) ∧ (∀ k, s.p.get k = 0) ∧
    s.res = 0 ∧ s.st = .ok ∧ s.fcause = 0 ∧ s.finfo = 0 ∧ (∀ j : Fin 32, s.seq[j] = 0) ∧ s.slen = 0

/-- R198: the host presents these commands, one after another. -/
def commands (l : List Instr) : List HostEvent := l.map fun i => .present (encode i)

/-- The state with the host about to present these commands and nothing else. -/
def State.given (s : State) (l : List Instr) : State := { s with host := commands l }

/-- R198, R199: the run of a list of commands, any (CW, DIN) among them, starts in the reset state. -/
def State.start (l : List Command) : State := { State.reset with host := l.map .present }

/-- `n` steps of the machine. -/
def runFor : Nat → State → Host.Outcome State Fault Refusal
  | 0, s => .next s
  | n + 1, s =>
    match step s with
    | .next t => runFor n t
    | .fault r => .fault r
    | .refused r => .refused r

/-- R198: the run has ended. -/
def State.ended (s : State) : Bool := s.host.isEmpty

/-- R198: a run that ends here is good. -/
def State.good (s : State) : Bool := !s.halted

/-- R32, R134: a running total is at most 16, and the interval of a non-zero total is a member of what the
builder has accumulated. -/
def AccOk (c : BCell) : Prop :=
  c.acc.toNat ≤ 16 ∧ (1 ≤ c.acc.toNat → isSet c.raw (c.acc.toNat - 1))

/-- R37, R38: SLEN is at most 32 and nothing stands in SEQ beyond it. -/
def SeqOk (s : State) : Prop :=
  s.slen.toNat ≤ 32 ∧ ∀ j : Fin 32, s.slen.toNat ≤ j → s.seq[j] = 0

/-- R36, R171: FCAUSE and FINFO are 0 while the unit is not halted, and name a cause with a value that
cause can report once it is. -/
def FaultRecordOk (s : State) : Prop :=
  match s.st with
  | .ok | .decodeFail => s.fcause = 0 ∧ s.finfo = 0
  | .fault =>
    match s.fcause.toNat with
    | 1 => True
    | 2 | 3 => 16 ≤ s.finfo.toNat
    | 4 => True
    | 5 => s.finfo.toNat < 1 ∨ 16 < s.finfo.toNat
    | 6 => s.finfo.toNat < 4
    | 7 => 240 ≤ s.finfo.toNat
    | _ => False

/-- The invariant of the unit's state. -/
def Inv (s : State) : Prop :=
  (∀ k, AccOk (s.b.get k)) ∧ SeqOk s ∧ FaultRecordOk s

end Machine

end Sys2Proof
end

