-- ==== Sys2Proof/Certificates/Slice0/Obligations.lean ====
section
/-!
DEFINITION. The statements about the model, from the numbered rules of spec/. Each docstring names the rule
it formalises. `k.num` is a register's number, `cwNumber` a command word by its fields, `s.faulted c v` the
state after a fault of cause c and value v, `s.done` the state with ST at OK (Sys2Proof/Safety.lean).
-/

open Sys2Proof Sys2Proof.Machine

/-! ## Encoding -/

/-- Decoding what a command is encoded as gives the command back, every operand at every value. -/
def Obligations.DecodeOfEncode : Prop := ∀ i : Instr, decode (encode i) = .ok i

/-- No bit of a command word is dropped by decoding, and of DIN only what R69 says is ignored. -/
def Obligations.EncodeOfDecode : Prop := ∀ (c : Command) (i : Instr), decode c = .ok i →
  (encode i).cw = c.cw ∧
  (encode i).din.toNat =
    (if c.cw.toNat / 2 ^ 24 = 0x10 then c.din.toNat % 2 ^ 16
     else if c.cw.toNat / 2 ^ 24 = 0x20 then c.din.toNat else 0)

/-- What the spec derives from R62, R63 and R65 (30_encoding.md, "Decode is total and unambiguous"): at most
one row of the opcode table fits a word; a word is a command exactly when one does, and then it is that
row's command with the word's own fields. -/
def Obligations.WordIsCommandIffOneRowFits : Prop := ∀ (w : BitVec 32) (din : BitVec 64),
  (∀ r ∈ opcodeTable, ∀ r' ∈ opcodeTable, r.fits w = true → r'.fits w = true → r = r') ∧
  ((∃ i, decode ⟨w, din⟩ = .ok i) ↔ ∃ r ∈ opcodeTable, r.fits w = true) ∧
  (∀ i, decode ⟨w, din⟩ = .ok i → ∀ r ∈ opcodeTable, r.fits w = true →
    r.mnemonic = i.mnemonic ∧ (encode i).cw = w)

/-- R66, R67: a word that fits no row of the opcode table faults ILLEGAL_COMMAND with its opcode. -/
def Obligations.IllegalWordFaults : Prop := ∀ (s : State) (c : Command) (rest : List HostEvent),
  s.host = .present c :: rest → s.st ≠ .fault → (∀ r ∈ opcodeTable, r.fits c.cw = false) →
  step s = .next ({ s with host := rest }.faulted 1 (c.cw.toNat / 2 ^ 24))

/-- R69: no DIN makes a command illegal; only BFROMRAW and FFROMRAW depend on DIN, and BFROMRAW on its low
sixteen bits alone. -/
def Obligations.DinIgnored : Prop := ∀ (cw : BitVec 32) (d d' : BitVec 64),
  ((∃ i, decode ⟨cw, d⟩ = .ok i) ↔ ∃ i, decode ⟨cw, d'⟩ = .ok i) ∧
  (cw.toNat / 2 ^ 24 ≠ 0x10 → cw.toNat / 2 ^ 24 ≠ 0x20 → decode ⟨cw, d⟩ = decode ⟨cw, d'⟩) ∧
  (cw.toNat / 2 ^ 24 = 0x10 → d.toNat % 2 ^ 16 = d'.toNat % 2 ^ 16 →
    decode ⟨cw, d⟩ = decode ⟨cw, d'⟩)

/-- A word of each family, written out from the fields of R62 and the opcodes of R65, is its command. -/
def Obligations.SampleWordsDecode : Prop :=
  decode ⟨0x12100F00, 0⟩ = .ok (.bget .r1 15) ∧
  decode ⟨0x23A00F0F, 0⟩ = .ok (.fset .r2 .r2 15 15) ∧
  decode ⟨0x30400A05, 0⟩ = .ok (.ppack .r1 10 5) ∧
  decode ⟨0x44400200, 0⟩ = .ok (.saddstep .r1 2) ∧
  decode ⟨0x50C0BEEF, 0⟩ = .ok (.cwithroot .r3 0xBEEF) ∧
  decode ⟨0x10800000, 0xFFFFFFFFFFFF0AD6⟩ = .ok (.bfromraw .r2 0x0AD6)

/-- R70: whatever the assembler accepts is a command, and the one the line's mnemonic names. -/
def Obligations.AssembledLineDecodes : Prop := ∀ (l : Asm.Line) (c : Command),
  Asm.assemble l = .ok c → ∃ i, decode c = .ok i ∧ i.mnemonic = Asm.expand l.mnemonic

/-- R71: the six pseudo-instructions are the six commands they expand to, with the same operands, and there
is no other. -/
def Obligations.PseudoInstructionsExpand : Prop := ∀ ops : List Asm.Operand,
  Asm.assemble ⟨"SFROMRAW", ops⟩ = Asm.assemble ⟨"BFROMRAW", ops⟩ ∧
  Asm.assemble ⟨"STORAW", ops⟩ = Asm.assemble ⟨"BTORAW", ops⟩ ∧
  Asm.assemble ⟨"SEMPTY", ops⟩ = Asm.assemble ⟨"BEMPTY", ops⟩ ∧
  Asm.assemble ⟨"SBUILD", ops⟩ = Asm.assemble ⟨"BBUILD", ops⟩ ∧
  Asm.assemble ⟨"CBUILD", ops⟩ = Asm.assemble ⟨"FBUILD", ops⟩ ∧
  Asm.assemble ⟨"CTORAW", ops⟩ = Asm.assemble ⟨"FTORAW", ops⟩ ∧
  ∀ m, m ∉ ["SFROMRAW", "STORAW", "SEMPTY", "SBUILD", "CBUILD", "CTORAW"] → Asm.expand m = m

/-! ## The step, reset and runs -/

/-- R73: a step takes the host's next event; a halted unit ignores a command, an illegal word faults, and
otherwise the decoded command is executed. The outcomes are three: completed, decode failure, fault. -/
def Obligations.StepRunsDecodedCommand : Prop :=
  ∀ (s : State) (c : Command) (rest : List HostEvent), s.host = .present c :: rest →
  (s.st = .fault → step s = .next { s with host := rest }) ∧
  (s.st ≠ .fault → ∀ e, decode c = .error e →
    step s = .next ({ s with host := rest }.faulted 1 (c.cw.toNat / 2 ^ 24))) ∧
  (s.st ≠ .fault → ∀ i, decode c = .ok i → step s = exec i { s with host := rest }) ∧
  (s.st ≠ .fault → ∃ t, step s = .next t ∧
    (t.st = .ok ∨ t = { s with host := rest, st := .decodeFail } ∨
      ∃ cause info, t = { s with host := rest }.faulted cause info))

/-- R173: once the unit is halted, no number of commands changes anything in it. -/
def Obligations.HaltedUntilReset : Prop := ∀ (n : Nat) (s : State), s.st = .fault →
  (∀ e ∈ s.host, e ≠ .reset) → runFor n s = .next { s with host := s.host.drop n }

/-- R42: the reset state has every value of the table, and a reset from any state, halted or not, gives
every part of the unit that value. -/
def Obligations.ResetValues : Prop :=
  AtReset State.reset ∧
  ∀ (s : State) (rest : List HostEvent), s.host = .reset :: rest →
    ∃ t, step s = .next t ∧ AtReset t ∧ t.host = rest

/-- R35, R198: every step answers a next state and takes exactly one event off the host's list, whatever
the status. That the step with no event left changes nothing is the model's choice (log entry 3). -/
def Obligations.EveryStepAnswersNext : Prop := ∀ s : State,
  ∃ t, step s = .next t ∧ t.host = s.host.tail ∧ (s.host = [] → t = s)

/-- R32, R36, R37, R38, R171: running totals, SEQ beyond SLEN, and the fault record stay as the rules say,
from every state in which they are. -/
def Obligations.StepKeepsInvariant : Prop := ∀ s t : State, Inv s → step s = .next t → Inv t

/-- The invariant holds in the reset state. -/
def Obligations.ResetMeetsInvariant : Prop := Inv State.reset

/-- R198, R199: the run of any list of commands, illegal words and ignored DIN bits included, ends after as
many steps as it has commands, in a state that meets the invariant. -/
def Obligations.RunOfCommandsEnds : Prop := ∀ l : List Command,
  ∃ t, runFor l.length (State.start l) = .next t ∧ t.ended = true ∧ Inv t

/-! ## What a command leaves unchanged -/

/-- R20, R21, R24, R41: no command changes a register other than its destination. -/
def Obligations.OnlyDestinationChanges : Prop := ∀ (i : Instr) (s t : State), exec i s = .next t →
  ∀ k, (i.bDest ≠ some k → t.b.get k = s.b.get k) ∧ (i.fDest ≠ some k → t.f.get k = s.f.get k) ∧
    (i.pDest ≠ some k → t.p.get k = s.p.get k)

/-- R33: RES changes only when a command that produces a scalar completes. -/
def Obligations.ResFrame : Prop := ∀ (i : Instr) (s t : State), exec i s = .next t →
  (i.producesRes = false ∨ t.st ≠ .ok) → t.res = s.res

/-- R37: SEQ and SLEN change only when a command that produces a sequence completes. -/
def Obligations.SequenceFrame : Prop := ∀ (i : Instr) (s t : State), exec i s = .next t →
  (i.producesSeq = false ∨ t.st ≠ .ok) → t.seq = s.seq ∧ t.slen = s.slen

/-- R172: a step that faults writes ST, FCAUSE and FINFO and changes nothing else in the unit. -/
def Obligations.FaultEntry : Prop := ∀ s t : State, s.st ≠ .fault → step s = .next t →
  t.st = .fault → ∃ cause info, 1 ≤ cause ∧ cause ≤ 7 ∧ info < 256 ∧
    t = { s with host := s.host.tail }.faulted cause info

/-- R36: only a fault writes FCAUSE and FINFO. -/
def Obligations.FaultRecordFrame : Prop := ∀ (i : Instr) (s t : State), exec i s = .next t →
  t.st ≠ .fault → t.fcause = s.fcause ∧ t.finfo = s.finfo

/-- R176: a command fails decode exactly when it is CSETDEG, ACCDEC or DEGDEC with a code out of its range,
and then it writes ST and nothing else. -/
def Obligations.DecodeFailure : Prop := ∀ (i : Instr) (s : State),
  (∀ t, exec i s = .next t → t.st = .decodeFail → t = { s with st := .decodeFail }) ∧
  ((∃ t, exec i s = .next t ∧ t.st = .decodeFail) ↔
    match i with
    | .csetdeg _ _ c => ¬ (1 ≤ c.toNat ∧ c.toNat ≤ 4)
    | .accdec c => ¬ (1 ≤ c.toNat ∧ c.toNat ≤ 4)
    | .degdec n => ¬ (1 ≤ n.toNat ∧ n.toNat ≤ 16)
    | _ => False)

/-- R32: BEMPTY, BFROMRAW and BMOV set the running total of their register to 0, SADDSTEP adds its delta,
and no other command changes a running total. -/
def Obligations.RunningTotal : Prop := ∀ (i : Instr) (s t : State) (k : RegNo),
  exec i s = .next t → t.st = .ok →
  match i with
  | .bempty rd | .bfromraw rd _ | .bmov rd _ =>
    (t.b.get k).acc.toNat = if k = rd then 0 else (s.b.get k).acc.toNat
  | .saddstep rd d =>
    (t.b.get k).acc.toNat = (s.b.get k).acc.toNat + if k = rd then d.toNat else 0
  | _ => (t.b.get k).acc = (s.b.get k).acc

/-- R31: a register becomes a builder only by being given a fresh one, and stops being one only by its
build or by a whole value. -/
def Obligations.TagTransitions : Prop := ∀ (i : Instr) (s t : State) (k : RegNo),
  exec i s = .next t →
  ((s.b.get k).tag = .built → (t.b.get k).tag = .building → i = .bempty k ∧ (t.b.get k).raw = 0) ∧
  ((s.b.get k).tag = .building → (t.b.get k).tag = .built →
    i = .bbuild k ∨ (∃ v, i = .bfromraw k v) ∨ ∃ rs, i = .bmov k rs) ∧
  ((s.f.get k).tag = .built → (t.f.get k).tag = .building →
    (i = .fempty k ∧ (t.f.get k).raw = 0) ∨ ∃ n, i = .cwithroot k n ∧ (t.f.get k).raw = 1) ∧
  ((s.f.get k).tag = .building → (t.f.get k).tag = .built →
    i = .fbuild k ∨ (∃ v, i = .ffromraw k v) ∨ (∃ rs, i = .fmov k rs) ∨
      ∃ rs a v, i = .fset k rs a v)

/-- R171, R177: a command that faults does so for a cause the table gives it, under the condition and with
the value the table gives, and only if every check that R177 puts before that one succeeded. -/
def Obligations.FaultCauses : Prop := ∀ (i : Instr) (s t : State), exec i s = .next t →
  t.st = .fault →
  match i with
  | .bget rs a =>
    ((s.b.get rs).tag = .building ∧ t = s.faulted 6 rs.num) ∨
      ((s.b.get rs).tag = .built ∧ 16 ≤ a.toNat ∧ t = s.faulted 2 a.toNat)
  | .fget rs a | .fset _ rs a _ =>
    ((s.f.get rs).tag = .building ∧ t = s.faulted 6 rs.num) ∨
      ((s.f.get rs).tag = .built ∧ 16 ≤ a.toNat ∧ t = s.faulted 2 a.toNat)
  | .bsetidx rd a =>
    ((s.b.get rd).tag = .built ∧ t = s.faulted 6 rd.num) ∨
      ((s.b.get rd).tag = .building ∧ 16 ≤ a.toNat ∧ t = s.faulted 2 a.toNat)
  | .fbset rd a _ =>
    ((s.f.get rd).tag = .built ∧ t = s.faulted 6 rd.num) ∨
      ((s.f.get rd).tag = .building ∧ 16 ≤ a.toNat ∧ t = s.faulted 2 a.toNat)
  | .ppack _ a b =>
    (16 ≤ a.toNat ∧ t = s.faulted 3 a.toNat) ∨
      (a.toNat < 16 ∧ 16 ≤ b.toNat ∧ t = s.faulted 3 b.toNat)
  | .ssetint rd a =>
    ((s.b.get rd).tag = .built ∧ t = s.faulted 6 rd.num) ∨
      ((s.b.get rd).tag = .building ∧ ¬ (1 ≤ a.toNat ∧ a.toNat ≤ 16) ∧ t = s.faulted 4 a.toNat)
  | .saddstep rd a =>
    ((s.b.get rd).tag = .built ∧ t = s.faulted 6 rd.num) ∨
      ((s.b.get rd).tag = .building ∧
        ¬ (1 ≤ (s.b.get rd).acc.toNat + a.toNat ∧ (s.b.get rd).acc.toNat + a.toNat ≤ 16) ∧
        t = s.faulted 4 a.toNat)
  | .csetdeg rd a c =>
    (1 ≤ c.toNat ∧ c.toNat ≤ 4) ∧
      (((s.f.get rd).tag = .built ∧ t = s.faulted 6 rd.num) ∨
        ((s.f.get rd).tag = .building ∧ ¬ (1 ≤ a.toNat ∧ a.toNat ≤ 16) ∧ t = s.faulted 5 a.toNat))
  | .sapply rs a =>
    ((s.b.get rs).tag = .building ∧ t = s.faulted 6 rs.num) ∨
      ((s.b.get rs).tag = .built ∧ (∃ n, inScale (s.b.get rs).raw n ∧ 255 < a.toNat + n) ∧
        t = s.faulted 7 a.toNat)
  | .bbuild rd => (s.b.get rd).tag = .built ∧ t = s.faulted 6 rd.num
  | .fbuild rd => (s.f.get rd).tag = .built ∧ t = s.faulted 6 rd.num
  | .btoraw rs | .biter rs | .bidxt rs | .bidxf rs | .bmov _ rs | .sintervals rs | .ssteps rs =>
    (s.b.get rs).tag = .building ∧ t = s.faulted 6 rs.num
  | .ftoraw rs | .fiter rs | .fmov _ rs | .cdegrees rs | .cname rs =>
    (s.f.get rs).tag = .building ∧ t = s.faulted 6 rs.num
  | .bfromraw _ _ | .bempty _ | .ffromraw _ _ | .fempty _ | .pfirst _ | .psecond _ | .ptoraw _
  | .pmov _ _ | .cwithroot _ _ | .accdec _ | .degdec _ => False

/-! ## BoolVector16 and Field16x4: whole values -/

/-- R80, R100: BFROMRAW and FFROMRAW load any raw word into any register and drop what it held. -/
def Obligations.FromRawLoads : Prop := ∀ (s : State) (rd : RegNo),
  (∀ din : BitVec 64,
    decode ⟨BitVec.ofNat 32 (cwNumber 0x10 rd.num 0 0 0), din⟩
      = .ok (.bfromraw rd (BitVec.ofNat 16 din.toNat)) ∧
    decode ⟨BitVec.ofNat 32 (cwNumber 0x20 rd.num 0 0 0), din⟩ = .ok (.ffromraw rd din)) ∧
  (∀ v, exec (.bfromraw rd v) s = .next (s.setB rd ⟨v, .built, 0⟩).done) ∧
  (∀ v, exec (.ffromraw rd v) s = .next (s.setF rd ⟨v, .built, 0⟩).done)

/-- R81, R101: BTORAW and FTORAW report the raw word of a finished value, zero-extended. -/
def Obligations.ToRawReports : Prop := ∀ (s : State) (rs : RegNo),
  WordOf (.btoraw rs) 0x11 0 rs.num 0 0 ∧ WordOf (.ftoraw rs) 0x21 0 rs.num 0 0 ∧
  ((s.b.get rs).tag = .building → exec (.btoraw rs) s = .next (s.faulted 6 rs.num)) ∧
  ((s.b.get rs).tag = .built → exec (.btoraw rs) s =
    .next { s with res := BitVec.ofNat 64 (s.b.get rs).raw.toNat }.done) ∧
  ((s.f.get rs).tag = .building → exec (.ftoraw rs) s = .next (s.faulted 6 rs.num)) ∧
  ((s.f.get rs).tag = .built → exec (.ftoraw rs) s = .next { s with res := (s.f.get rs).raw }.done)

/-- R86, R105: BEMPTY and FEMPTY start an all-zero builder, whatever the register held. -/
def Obligations.EmptyStartsBuilder : Prop := ∀ (s : State) (rd : RegNo),
  WordOf (.bempty rd) 0x16 rd.num 0 0 0 ∧ WordOf (.fempty rd) 0x25 rd.num 0 0 0 ∧
  exec (.bempty rd) s = .next (s.setB rd ⟨0, .building, 0⟩).done ∧
  exec (.fempty rd) s = .next (s.setF rd ⟨0, .building, 0⟩).done

/-- R88, R107: BBUILD and FBUILD finish a builder once, keep its content and report it. -/
def Obligations.BuildFinishesOnce : Prop := ∀ (s : State) (rd : RegNo),
  WordOf (.bbuild rd) 0x18 rd.num 0 0 0 ∧ WordOf (.fbuild rd) 0x27 rd.num 0 0 0 ∧
  ((s.b.get rd).tag = .built → exec (.bbuild rd) s = .next (s.faulted 6 rd.num)) ∧
  ((s.b.get rd).tag = .building → exec (.bbuild rd) s =
    .next { s.setB rd ⟨(s.b.get rd).raw, .built, (s.b.get rd).acc⟩ with
      res := BitVec.ofNat 64 (s.b.get rd).raw.toNat }.done) ∧
  ((s.f.get rd).tag = .built → exec (.fbuild rd) s = .next (s.faulted 6 rd.num)) ∧
  ((s.f.get rd).tag = .building → exec (.fbuild rd) s =
    .next { s.setF rd ⟨(s.f.get rd).raw, .built, (s.f.get rd).name⟩ with
      res := (s.f.get rd).raw }.done)

/-- R89, R108, R124: the copies. A builder is not copied, the destination is not checked, and a source that
is also the destination is read first (R196). -/
def Obligations.MovCopies : Prop := ∀ (s : State) (rd rs : RegNo),
  WordOf (.bmov rd rs) 0x19 rd.num rs.num 0 0 ∧ WordOf (.fmov rd rs) 0x28 rd.num rs.num 0 0 ∧
  WordOf (.pmov rd rs) 0x34 rd.num rs.num 0 0 ∧
  ((s.b.get rs).tag = .building → exec (.bmov rd rs) s = .next (s.faulted 6 rs.num)) ∧
  ((s.b.get rs).tag = .built → exec (.bmov rd rs) s =
    .next (s.setB rd ⟨(s.b.get rs).raw, .built, 0⟩).done) ∧
  ((s.f.get rs).tag = .building → exec (.fmov rd rs) s = .next (s.faulted 6 rs.num)) ∧
  ((s.f.get rs).tag = .built → exec (.fmov rd rs) s =
    .next (s.setF rd ⟨(s.f.get rs).raw, .built, (s.f.get rs).name⟩).done) ∧
  exec (.pmov rd rs) s = .next (s.setP rd (s.p.get rs)).done

/-! ## BoolVector16: bits -/

/-- R82: BGET reports one bit; the builder state is checked before the index. -/
def Obligations.BgetReportsBit : Prop := ∀ (s : State) (rs : RegNo) (a : Byte),
  WordOf (.bget rs a) 0x12 0 rs.num a.toNat 0 ∧
  ((s.b.get rs).tag = .building → exec (.bget rs a) s = .next (s.faulted 6 rs.num)) ∧
  ((s.b.get rs).tag = .built → 16 ≤ a.toNat → exec (.bget rs a) s = .next (s.faulted 2 a.toNat)) ∧
  ((s.b.get rs).tag = .built → a.toNat < 16 → exec (.bget rs a) s =
    .next { s with res := BitVec.ofNat 64 ((s.b.get rs).raw.toNat / 2 ^ a.toNat % 2) }.done)

/-- R83: BITER delivers the sixteen bits, position 0 first. -/
def Obligations.BiterDeliversBits : Prop := ∀ (s : State) (rs : RegNo),
  WordOf (.biter rs) 0x13 0 rs.num 0 0 ∧
  ((s.b.get rs).tag = .building → exec (.biter rs) s = .next (s.faulted 6 rs.num)) ∧
  ((s.b.get rs).tag = .built → DeliversOk s (exec (.biter rs) s)
    ((List.range 16).map fun i => (s.b.get rs).raw.toNat / 2 ^ i % 2))

/-- R84, R85: BIDXT and BIDXF deliver the set and the clear positions, each in ascending order. -/
def Obligations.IndexListsAscending : Prop := ∀ (s : State) (rs : RegNo),
  WordOf (.bidxt rs) 0x14 0 rs.num 0 0 ∧ WordOf (.bidxf rs) 0x15 0 rs.num 0 0 ∧
  ((s.b.get rs).tag = .building → exec (.bidxt rs) s = .next (s.faulted 6 rs.num) ∧
    exec (.bidxf rs) s = .next (s.faulted 6 rs.num)) ∧
  ((s.b.get rs).tag = .built →
    (∃ l, l.Pairwise (· < ·) ∧ (∀ n, n ∈ l ↔ n < 16 ∧ isSet (s.b.get rs).raw n) ∧
      DeliversOk s (exec (.bidxt rs) s) l) ∧
    (∃ l, l.Pairwise (· < ·) ∧ (∀ n, n ∈ l ↔ n < 16 ∧ ¬ isSet (s.b.get rs).raw n) ∧
      DeliversOk s (exec (.bidxf rs) s) l))

/-- R87: BSETIDX sets one bit of a builder and changes nothing else of it. -/
def Obligations.BsetidxSetsBit : Prop := ∀ (s : State) (rd : RegNo) (a : Byte),
  WordOf (.bsetidx rd a) 0x17 rd.num 0 a.toNat 0 ∧
  ((s.b.get rd).tag = .built → exec (.bsetidx rd a) s = .next (s.faulted 6 rd.num)) ∧
  ((s.b.get rd).tag = .building → 16 ≤ a.toNat →
    exec (.bsetidx rd a) s = .next (s.faulted 2 a.toNat)) ∧
  ((s.b.get rd).tag = .building → a.toNat < 16 →
    ∃ w, (∀ j < 16, isSet w j ↔ isSet (s.b.get rd).raw j ∨ j = a.toNat) ∧
      exec (.bsetidx rd a) s = .next (s.setB rd ⟨w, .building, (s.b.get rd).acc⟩).done)

/-! ## Field16x4: fields -/

/-- R102: FGET reports one field; the builder state is checked before the index. -/
def Obligations.FgetReportsField : Prop := ∀ (s : State) (rs : RegNo) (a : Byte),
  WordOf (.fget rs a) 0x22 0 rs.num a.toNat 0 ∧
  ((s.f.get rs).tag = .building → exec (.fget rs a) s = .next (s.faulted 6 rs.num)) ∧
  ((s.f.get rs).tag = .built → 16 ≤ a.toNat → exec (.fget rs a) s = .next (s.faulted 2 a.toNat)) ∧
  ((s.f.get rs).tag = .built → a.toNat < 16 → exec (.fget rs a) s =
    .next { s with res := BitVec.ofNat 64 (slot (s.f.get rs).raw a.toNat) }.done)

/-- R103, R115, R196: FSET writes to the destination the source's word with one field replaced by the value
masked to 4 bits; the other fifteen fields and the name are the source's, also where source and destination
are one register. -/
def Obligations.FsetReplacesField : Prop := ∀ (s : State) (rd rs : RegNo) (a v : Byte),
  WordOf (.fset rd rs a v) 0x23 rd.num rs.num a.toNat v.toNat ∧
  ((s.f.get rs).tag = .building → exec (.fset rd rs a v) s = .next (s.faulted 6 rs.num)) ∧
  ((s.f.get rs).tag = .built → 16 ≤ a.toNat →
    exec (.fset rd rs a v) s = .next (s.faulted 2 a.toNat)) ∧
  ((s.f.get rs).tag = .built → a.toNat < 16 →
    ∃ w, (∀ j < 16, slot w j = if j = a.toNat then v.toNat % 16 else slot (s.f.get rs).raw j) ∧
      exec (.fset rd rs a v) s = .next (s.setF rd ⟨w, .built, (s.f.get rs).name⟩).done)

/-- R104: FITER delivers the sixteen fields, field 0 first. -/
def Obligations.FiterDeliversFields : Prop := ∀ (s : State) (rs : RegNo),
  WordOf (.fiter rs) 0x24 0 rs.num 0 0 ∧
  ((s.f.get rs).tag = .building → exec (.fiter rs) s = .next (s.faulted 6 rs.num)) ∧
  ((s.f.get rs).tag = .built → DeliversOk s (exec (.fiter rs) s)
    ((List.range 16).map (slot (s.f.get rs).raw)))

/-- R106: FBSET replaces one field of a builder by the value masked to 4 bits. -/
def Obligations.FbsetReplacesField : Prop := ∀ (s : State) (rd : RegNo) (a v : Byte),
  WordOf (.fbset rd a v) 0x26 rd.num 0 a.toNat v.toNat ∧
  ((s.f.get rd).tag = .built → exec (.fbset rd a v) s = .next (s.faulted 6 rd.num)) ∧
  ((s.f.get rd).tag = .building → 16 ≤ a.toNat →
    exec (.fbset rd a v) s = .next (s.faulted 2 a.toNat)) ∧
  ((s.f.get rd).tag = .building → a.toNat < 16 →
    ∃ w, (∀ j < 16, slot w j = if j = a.toNat then v.toNat % 16 else slot (s.f.get rd).raw j) ∧
      exec (.fbset rd a v) s = .next (s.setF rd ⟨w, .building, (s.f.get rd).name⟩).done)

/-! ## PackedPair4 -/

/-- R120: PPACK puts second above first, and faults on an operand above 15, the first one first. -/
def Obligations.PpackPacks : Prop := ∀ (s : State) (rd : RegNo) (a b : Byte),
  WordOf (.ppack rd a b) 0x30 rd.num 0 a.toNat b.toNat ∧
  (16 ≤ a.toNat → exec (.ppack rd a b) s = .next (s.faulted 3 a.toNat)) ∧
  (a.toNat < 16 → 16 ≤ b.toNat → exec (.ppack rd a b) s = .next (s.faulted 3 b.toNat)) ∧
  (a.toNat < 16 → b.toNat < 16 → exec (.ppack rd a b) s =
    .next (s.setP rd (BitVec.ofNat 8 (16 * b.toNat + a.toNat))).done)

/-- R121, R122, R123: PFIRST, PSECOND and PTORAW report the low nibble, the high nibble and the byte. -/
def Obligations.PairReads : Prop := ∀ (s : State) (rs : RegNo),
  WordOf (.pfirst rs) 0x31 0 rs.num 0 0 ∧ WordOf (.psecond rs) 0x32 0 rs.num 0 0 ∧
  WordOf (.ptoraw rs) 0x33 0 rs.num 0 0 ∧
  exec (.pfirst rs) s = .next { s with res := BitVec.ofNat 64 ((s.p.get rs).toNat % 16) }.done ∧
  exec (.psecond rs) s = .next { s with res := BitVec.ofNat 64 ((s.p.get rs).toNat / 16) }.done ∧
  exec (.ptoraw rs) s = .next { s with res := BitVec.ofNat 64 (s.p.get rs).toNat }.done

/-! ## Scales -/

/-- R130, R141: SINTERVALS delivers the intervals of the scale, ascending. -/
def Obligations.SintervalsDelivers : Prop := ∀ (s : State) (rs : RegNo),
  WordOf (.sintervals rs) 0x40 0 rs.num 0 0 ∧
  ((s.b.get rs).tag = .building → exec (.sintervals rs) s = .next (s.faulted 6 rs.num)) ∧
  ((s.b.get rs).tag = .built → ∃ l, IntervalList (s.b.get rs).raw l ∧
    DeliversOk s (exec (.sintervals rs) s) l)

/-- R131: SSTEPS delivers the first differences of the intervals, with an implicit leading 0. -/
def Obligations.SstepsDelivers : Prop := ∀ (s : State) (rs : RegNo),
  WordOf (.ssteps rs) 0x41 0 rs.num 0 0 ∧
  ((s.b.get rs).tag = .building → exec (.ssteps rs) s = .next (s.faulted 6 rs.num)) ∧
  ((s.b.get rs).tag = .built → ∃ iv l, IntervalList (s.b.get rs).raw iv ∧ l.length = iv.length ∧
    (∀ k < iv.length, l.getD k 0 + (if k = 0 then 0 else iv.getD (k - 1) 0) = iv.getD k 0) ∧
    DeliversOk s (exec (.ssteps rs) s) l)

/-- R132: SAPPLY delivers the root and then each interval above it, or faults if one exceeds 255. -/
def Obligations.SapplyDeliversPitches : Prop := ∀ (s : State) (rs : RegNo) (a : Byte),
  WordOf (.sapply rs a) 0x42 0 rs.num a.toNat 0 ∧
  ((s.b.get rs).tag = .building → exec (.sapply rs a) s = .next (s.faulted 6 rs.num)) ∧
  ((s.b.get rs).tag = .built → (∃ n, inScale (s.b.get rs).raw n ∧ 255 < a.toNat + n) →
    exec (.sapply rs a) s = .next (s.faulted 7 a.toNat)) ∧
  ((s.b.get rs).tag = .built → (∀ n, inScale (s.b.get rs).raw n → a.toNat + n ≤ 255) →
    ∃ iv, IntervalList (s.b.get rs).raw iv ∧
      DeliversOk s (exec (.sapply rs a) s) (a.toNat :: iv.map (a.toNat + ·)))

/-- R133: SSETINT adds one interval to a scale builder and leaves its running total alone. -/
def Obligations.SsetintAddsInterval : Prop := ∀ (s : State) (rd : RegNo) (a : Byte),
  WordOf (.ssetint rd a) 0x43 rd.num 0 a.toNat 0 ∧
  ((s.b.get rd).tag = .built → exec (.ssetint rd a) s = .next (s.faulted 6 rd.num)) ∧
  ((s.b.get rd).tag = .building → ¬ (1 ≤ a.toNat ∧ a.toNat ≤ 16) →
    exec (.ssetint rd a) s = .next (s.faulted 4 a.toNat)) ∧
  ((s.b.get rd).tag = .building → 1 ≤ a.toNat → a.toNat ≤ 16 →
    ∃ w, (∀ n, inScale w n ↔ inScale (s.b.get rd).raw n ∨ n = a.toNat) ∧
      exec (.ssetint rd a) s = .next (s.setB rd ⟨w, .building, (s.b.get rd).acc⟩).done)

/-- R134: SADDSTEP moves the running total by its delta and adds the new total as an interval; a total
outside 1 to 16 faults with the delta. -/
def Obligations.SaddstepAddsTotal : Prop := ∀ (s : State) (rd : RegNo) (a : Byte) (t : Nat),
  t = (s.b.get rd).acc.toNat + a.toNat →
  WordOf (.saddstep rd a) 0x44 rd.num 0 a.toNat 0 ∧
  ((s.b.get rd).tag = .built → exec (.saddstep rd a) s = .next (s.faulted 6 rd.num)) ∧
  ((s.b.get rd).tag = .building → ¬ (1 ≤ t ∧ t ≤ 16) →
    exec (.saddstep rd a) s = .next (s.faulted 4 a.toNat)) ∧
  ((s.b.get rd).tag = .building → 1 ≤ t → t ≤ 16 →
    ∃ w, (∀ n, inScale w n ↔ inScale (s.b.get rd).raw n ∨ n = t) ∧
      exec (.saddstep rd a) s = .next (s.setB rd ⟨w, .building, BitVec.ofNat 5 t⟩).done)

/-! ## Chords -/

/-- R150: CWITHROOT starts a chord builder in which degree 1 is natural and every other degree absent. -/
def Obligations.CwithrootStartsChord : Prop := ∀ (s : State) (rd : RegNo) (n : Name16),
  WordOf (.cwithroot rd n) 0x50 rd.num 0 (n.toNat / 256) (n.toNat % 256) ∧
  ∃ w, slot w 0 = 1 ∧ (∀ j < 16, j ≠ 0 → slot w j = 0) ∧
    exec (.cwithroot rd n) s = .next (s.setF rd ⟨w, .building, n⟩).done

/-- R151: CSETDEG decodes its code first, then checks the builder state, then the degree; then it writes the
code into the degree's slot. -/
def Obligations.CsetdegSetsDegree : Prop := ∀ (s : State) (rd : RegNo) (a c : Byte),
  WordOf (.csetdeg rd a c) 0x51 rd.num 0 a.toNat c.toNat ∧
  (¬ (1 ≤ c.toNat ∧ c.toNat ≤ 4) → exec (.csetdeg rd a c) s = .next { s with st := .decodeFail }) ∧
  (1 ≤ c.toNat → c.toNat ≤ 4 → (s.f.get rd).tag = .built →
    exec (.csetdeg rd a c) s = .next (s.faulted 6 rd.num)) ∧
  (1 ≤ c.toNat → c.toNat ≤ 4 → (s.f.get rd).tag = .building → ¬ (1 ≤ a.toNat ∧ a.toNat ≤ 16) →
    exec (.csetdeg rd a c) s = .next (s.faulted 5 a.toNat)) ∧
  (1 ≤ c.toNat → c.toNat ≤ 4 → (s.f.get rd).tag = .building → 1 ≤ a.toNat → a.toNat ≤ 16 →
    ∃ w, (∀ j < 16, slot w j = if j = a.toNat - 1 then c.toNat else slot (s.f.get rd).raw j) ∧
      exec (.csetdeg rd a c) s = .next (s.setF rd ⟨w, .building, (s.f.get rd).name⟩).done)

/-- R152: CDEGREES delivers the degree number and the raw code of every slot that is not 0, in
strictly ascending order of degree. -/
def Obligations.CdegreesDeliversPairs : Prop := ∀ (s : State) (rs : RegNo),
  WordOf (.cdegrees rs) 0x52 0 rs.num 0 0 ∧
  ((s.f.get rs).tag = .building → exec (.cdegrees rs) s = .next (s.faulted 6 rs.num)) ∧
  ((s.f.get rs).tag = .built →
    ∃ pairs : List (Nat × Nat), pairs.Pairwise (fun x y => x.1 < y.1) ∧
      (∀ d v, (d, v) ∈ pairs ↔
        1 ≤ d ∧ d ≤ 16 ∧ v = slot (s.f.get rs).raw (d - 1) ∧ v ≠ 0) ∧
      DeliversOk s (exec (.cdegrees rs) s) (pairs.flatMap fun x => [x.1, x.2]))

/-- R153: CNAME reports the name handle. -/
def Obligations.CnameReportsHandle : Prop := ∀ (s : State) (rs : RegNo),
  WordOf (.cname rs) 0x53 0 rs.num 0 0 ∧
  ((s.f.get rs).tag = .building → exec (.cname rs) s = .next (s.faulted 6 rs.num)) ∧
  ((s.f.get rs).tag = .built → exec (.cname rs) s =
    .next { s with res := BitVec.ofNat 64 (s.f.get rs).name.toNat }.done)

/-- R154, R155: ACCDEC accepts 1 to 4 and DEGDEC 1 to 16; a code outside fails decode and halts
nothing. -/
def Obligations.CodeDecoders : Prop := ∀ (s : State) (a : Byte),
  WordOf (.accdec a) 0x54 0 0 a.toNat 0 ∧ WordOf (.degdec a) 0x55 0 0 a.toNat 0 ∧
  (¬ (1 ≤ a.toNat ∧ a.toNat ≤ 4) → exec (.accdec a) s = .next { s with st := .decodeFail }) ∧
  (1 ≤ a.toNat → a.toNat ≤ 4 → exec (.accdec a) s =
    .next { s with res := BitVec.ofNat 64 a.toNat }.done) ∧
  (¬ (1 ≤ a.toNat ∧ a.toNat ≤ 16) → exec (.degdec a) s = .next { s with st := .decodeFail }) ∧
  (1 ≤ a.toNat → a.toNat ≤ 16 → exec (.degdec a) s =
    .next { s with res := BitVec.ofNat 64 a.toNat }.done)

/-! ## Properties over several commands -/

/-- Derived by the spec from R80, R81, R100 and R101: a raw word loaded and read back is the word, of both
widths, over two steps of the unit. -/
def Obligations.RawRoundTrip : Prop := ∀ (s : State) (k : RegNo) (rest : List HostEvent),
  s.st ≠ .fault →
  (∀ v, ∃ t, runFor 2 { s with host := commands [.bfromraw k v, .btoraw k] ++ rest } = .next t ∧
    t.res.toNat = v.toNat ∧ t.st = .ok ∧ t.host = rest) ∧
  (∀ v, ∃ t, runFor 2 { s with host := commands [.ffromraw k v, .ftoraw k] ++ rest } = .next t ∧
    t.res = v ∧ t.st = .ok ∧ t.host = rest)

/-- Derived by the spec from R82, R83, R102 and R104: what BGET reports for a position is that entry of
BITER's sequence, and FGET's of FITER's; and iterating again gives the same sequence. -/
def Obligations.GetAgreesWithIterate : Prop := ∀ (s t u v : State) (k : RegNo) (i : Fin 32),
  (i : Nat) < 16 →
  ((s.b.get k).tag = .built → exec (.bget k (BitVec.ofNat 8 i)) s = .next t →
    exec (.biter k) s = .next u → t.res.toNat = u.seq[i].toNat ∧
      (exec (.biter k) u = .next v → v.seq = u.seq ∧ v.slen = u.slen)) ∧
  ((s.f.get k).tag = .built → exec (.fget k (BitVec.ofNat 8 i)) s = .next t →
    exec (.fiter k) s = .next u → t.res.toNat = u.seq[i].toNat)

/-- Derived by the spec from R102 and R103: FSET of one field leaves what FGET gives for every other field,
and FGET of the field last set gives the value masked to 4 bits. -/
def Obligations.FieldIsolationAndOverwrite : Prop :=
  ∀ (s : State) (fd fs : RegNo) (i j x y : Byte), s.st ≠ .fault → (s.f.get fs).tag = .built →
  i.toNat < 16 → j.toNat < 16 →
  (i ≠ j → ∃ t u, runFor 2 (s.given [.fset fd fs i x, .fget fd j]) = .next t ∧
    exec (.fget fs j) s = .next u ∧ t.st = .ok ∧ t.res = u.res) ∧
  (∃ t, runFor 3 (s.given [.fset fd fs i x, .fset fd fd i y, .fget fd i]) = .next t ∧
    t.st = .ok ∧ t.res.toNat = y.toNat % 16)

/-- Derived by the spec from R120 to R123: what PPACK packs, PFIRST, PSECOND and PTORAW give back. -/
def Obligations.PackInvariant : Prop := ∀ (s : State) (k : RegNo) (x y : Byte), s.st ≠ .fault →
  x.toNat < 16 → y.toNat < 16 →
  (∃ t, runFor 2 (s.given [.ppack k x y, .pfirst k]) = .next t ∧
    t.res.toNat = x.toNat) ∧
  (∃ t, runFor 2 (s.given [.ppack k x y, .psecond k]) = .next t ∧
    t.res.toNat = y.toNat) ∧
  (∃ t, runFor 2 (s.given [.ppack k x y, .ptoraw k]) = .next t ∧
    t.res.toNat = 16 * y.toNat + x.toNat)

/-- Derived by the spec from R80 and R86 to R88: a BoolVector16 built from any list of positions, in any
order and with repeats, is exactly the set of those positions, and the register is what BFROMRAW of that
word makes it. -/
def Obligations.BoolBuilderIsDirect : Prop := ∀ (s : State) (k : RegNo) (idx : List Byte),
  s.st ≠ .fault → (∀ i ∈ idx, i.toNat < 16) →
  ∃ t w, runFor (idx.length + 2)
      (s.given (.bempty k :: idx.map (.bsetidx k) ++ [.bbuild k])) = .next t ∧
    t.st = .ok ∧ t.host = [] ∧ t.b.get k = ⟨w, .built, 0⟩ ∧
    (∀ j < 16, isSet w j ↔ ∃ i ∈ idx, i.toNat = j) ∧ t.res.toNat = w.toNat ∧
    ∃ u, exec (.bfromraw k w) s = .next u ∧ u.b.get k = t.b.get k

/-- Derived by the spec from R100, R103 and R105 to R107: a Field16x4 built from any list of (index, value)
pairs holds in each field the last value given to it, masked to 4 bits, and 0 in every field never set; and
FSET of the same pairs, in order, on the zero word gives the same word. -/
def Obligations.FieldBuilderIsDirect : Prop := ∀ (s : State) (k : RegNo) (sets : List (Byte × Byte)),
  s.st ≠ .fault → (∀ p ∈ sets, p.1.toNat < 16) →
  ∃ t u, runFor (sets.length + 2)
      (s.given (.fempty k :: sets.map (fun p => .fbset k p.1 p.2) ++ [.fbuild k])) = .next t ∧
    t.st = .ok ∧ t.host = [] ∧ (t.f.get k).tag = .built ∧ t.res = (t.f.get k).raw ∧
    (∀ j < 16, slot (t.f.get k).raw j =
      ((sets.filter fun p => p.1.toNat = j).getLast?.map fun p => p.2.toNat % 16).getD 0) ∧
    runFor (sets.length + 1)
      (s.given (.ffromraw k 0 :: sets.map fun p => .fset k k p.1 p.2)) = .next u ∧
    u.st = .ok ∧ u.host = [] ∧ (u.f.get k).raw = (t.f.get k).raw

/-- Derived by the spec from R133 and R134: a scale built from an ascending list of intervals by SSETINT and
the scale built from the same list's first differences by SADDSTEP are the same word, and its intervals are
the list. -/
def Obligations.ScaleBuildersAgree : Prop := ∀ (s : State) (x y : RegNo) (ns ds : List Byte),
  s.st ≠ .fault → x ≠ y → (ns.map BitVec.toNat).Pairwise (· < ·) →
  (∀ n ∈ ns, 1 ≤ n.toNat ∧ n.toNat ≤ 16) → ds.length = ns.length →
  (∀ j < ns.length, (ds.getD j 0).toNat + (if j = 0 then 0 else (ns.getD (j - 1) 0).toNat)
    = (ns.getD j 0).toNat) →
  ∃ t, runFor (2 * ns.length + 4)
      (s.given (.bempty x :: ns.map (.ssetint x) ++ [.bbuild x] ++
        (.bempty y :: ds.map (.saddstep y) ++ [.bbuild y]))) = .next t ∧
    t.st = .ok ∧ t.host = [] ∧ (t.b.get x).raw = (t.b.get y).raw ∧
    IntervalList (t.b.get x).raw (ns.map BitVec.toNat)

/-- Derived by the spec from R130 to R132 and R134: each interval is the sum of the steps up to it, each
pitch is the root and an interval, and the steps, fed in order to SADDSTEP on a fresh builder, rebuild the
word. -/
def Obligations.StepsAndIntervalsAgree : Prop := ∀ (s : State) (k d : RegNo), s.st ≠ .fault →
  (s.b.get k).tag = .built →
  ∃ u v t, exec (.ssteps k) s = .next u ∧ exec (.sintervals k) s = .next v ∧ u.slen = v.slen ∧
    (∀ j < v.slen.toNat, (v.seq.toList.getD j 0).toNat
      = ((u.seq.toList.take (j + 1)).map BitVec.toNat).sum) ∧
    (∀ a w, exec (.sapply k a) s = .next w → w.st = .ok →
      w.slen.toNat = v.slen.toNat + 1 ∧ ∀ j < w.slen.toNat, (w.seq.toList.getD j 0).toNat
        = a.toNat + if j = 0 then 0 else (v.seq.toList.getD (j - 1) 0).toNat) ∧
    runFor (u.slen.toNat + 2)
      (u.given (.bempty d ::
        (u.seq.toList.take u.slen.toNat).map (.saddstep d) ++ [.bbuild d])) = .next t ∧
    t.st = .ok ∧ t.host = [] ∧ (t.b.get d).raw = (s.b.get k).raw

/-- Derived by the spec from R104, R150 to R152 and R154: CDEGREES gives the non-zero entries of FITER with
their degree numbers; and a chord builder that CWITHROOT started and only CSETDEG changed holds slot values
0 to 4 only, so every code CDEGREES delivers from it passes ACCDEC. -/
def Obligations.ChordSlotsAndCodes : Prop := ∀ (s t u : State) (k : RegNo),
  ((s.f.get k).tag = .built → exec (.fiter k) s = .next t → exec (.cdegrees k) s = .next u →
    Delivers u ((List.range 16).flatMap fun i =>
      if t.seq.toList.getD i 0 = 0 then [] else [i + 1, (t.seq.toList.getD i 0).toNat])) ∧
  (∀ n, exec (.cwithroot k n) s = .next t → ∀ j < 16, slot (t.f.get k).raw j ≤ 4) ∧
  (∀ a c, (∀ j < 16, slot (s.f.get k).raw j ≤ 4) → exec (.csetdeg k a c) s = .next t →
    ∀ j < 16, slot (t.f.get k).raw j ≤ 4) ∧
  ((∀ j < 16, slot (s.f.get k).raw j ≤ 4) → ∀ j < 16, slot (s.f.get k).raw j ≠ 0 →
    ∃ v, exec (.accdec (BitVec.ofNat 8 (slot (s.f.get k).raw j))) s = .next v ∧ v.st = .ok)

/-- R30, R40, R157: the unit never interprets a name. Two states that differ in their names alone still
differ in nothing else after any command but CNAME. -/
def Obligations.NamesAreOpaque : Prop := ∀ (i : Instr) (s s' t t' : State),
  (∀ k, i ≠ .cname k) →
  (∀ k, (s.f.get k).raw = (s'.f.get k).raw ∧ (s.f.get k).tag = (s'.f.get k).tag) →
  s = { s' with f := s.f } → exec i s = .next t → exec i s' = .next t' →
  t = { t' with f := t.f } ∧
  ∀ k, (t.f.get k).raw = (t'.f.get k).raw ∧ (t.f.get k).tag = (t'.f.get k).tag

/-- R32: a running total is read by SADDSTEP alone. Two states that differ in running totals alone show the
host the same, and differ in nothing else, after any other command. -/
def Obligations.TotalsAreHidden : Prop := ∀ (i : Instr) (s s' t t' : State),
  (∀ k d, i ≠ .saddstep k d) →
  (∀ k, (s.b.get k).raw = (s'.b.get k).raw ∧ (s.b.get k).tag = (s'.b.get k).tag) →
  s = { s' with b := s.b } → exec i s = .next t → exec i s' = .next t' →
  t.hostView = t'.hostView ∧ t = { t' with b := t.b } ∧
  ∀ k, (t.b.get k).raw = (t'.b.get k).raw ∧ (t.b.get k).tag = (t'.b.get k).tag
end

