-- ==== Sys2Proof/Laws/Decode.lean ====
section
/-!
SUPPORT. The command word and its fields (R62): the word as a number, and each determined by the other.
-/

namespace Sys2Proof

/-- Appending below is adding below. -/
theorem append_toNat {m n : Nat} (x : BitVec m) (y : BitVec n) :
    (x ++ y).toNat = x.toNat * 2 ^ n + y.toNat := by
  rw [BitVec.toNat_append, ← Nat.shiftLeft_add_eq_or_of_lt y.isLt, Nat.shiftLeft_eq]

/-- R62: the word as a number. -/
theorem Fields.word_toNat (f : Fields) :
    f.word.toNat = f.op.toNat * 2 ^ 24 + f.rd.toNat * 2 ^ 22 + f.rs.toNat * 2 ^ 20
      + f.z.toNat * 2 ^ 16 + f.a.toNat * 2 ^ 8 + f.b8.toNat := by
  simp only [Fields.word, append_toNat]
  ring

theorem extract_toNat {n : Nat} (w : BitVec n) (lo len : Nat) :
    (w.extractLsb' lo len).toNat = w.toNat / 2 ^ lo % 2 ^ len := by
  rw [BitVec.extractLsb'_toNat, Nat.shiftRight_eq_div_pow]

/-- The fields of a word made of fields are those fields. -/
@[simp] theorem Fields.ofWord_word (f : Fields) : Fields.ofWord f.word = f := by
  obtain ⟨op, rd, rs, z, a, b8⟩ := f
  have hw := Fields.word_toNat ⟨op, rd, rs, z, a, b8⟩
  have := op.isLt; have := rd.isLt; have := rs.isLt; have := z.isLt; have := a.isLt; have := b8.isLt
  simp only at hw
  simp only [Fields.ofWord, Fields.mk.injEq, ← BitVec.toNat_inj, extract_toNat]
  refine ⟨?_, ?_, ?_, ?_, ?_, ?_⟩ <;> omega

/-- A word is the word of its fields. -/
@[simp] theorem Fields.word_ofWord (w : BitVec 32) : (Fields.ofWord w).word = w := by
  have := w.isLt
  rw [← BitVec.toNat_inj, Fields.word_toNat]
  simp only [Fields.ofWord, extract_toNat]
  omega

theorem RegNo.bits_toNat (k : RegNo) : k.bits.toNat = k.num := by cases k <;> rfl

theorem RegNo.num_lt (k : RegNo) : k.num < 4 := by cases k <;> decide

@[simp] theorem RegNo.ofBits_bits (k : RegNo) : RegNo.ofBits k.bits = k := by cases k <;> rfl

@[simp] theorem RegNo.bits_ofBits (v : BitVec 2) : (RegNo.ofBits v).bits = v := by
  revert v; decide

/-- R62: an assembled word as a number. -/
theorem assembled_cw_toNat (op : BitVec 8) (rd rs : BitVec 2) (a b8 : Byte) (din : BitVec 64) :
    (assembled op rd rs a b8 din).cw.toNat
      = cwNumber op.toNat rd.toNat rs.toNat a.toNat b8.toNat := by
  simp [assembled, Fields.word_toNat, cwNumber]

/-- The decoder reads an assembled command by its fields. -/
theorem decode_assembled (op : BitVec 8) (rd rs : BitVec 2) (a b8 : Byte) (din : BitVec 64) :
    decode (assembled op rd rs a b8 din) = decodeFields ⟨op, rd, rs, 0, a, b8⟩ din := by
  simp [decode, assembled]

/-- What the decoder accepts, it accepts as given, and its fixed bits are zero. -/
theorem accept_ok {fmt : Format} {f : Fields} {i j : Instr} (h : accept fmt f i = .ok j) :
    i = j ∧ fmt.fixedZero f = true := by
  unfold accept at h
  split at h
  · cases h
    exact ⟨rfl, ‹_›⟩
  · cases h

/-- A word by its fields. -/
theorem wordOf_of_fields {i : Instr} {op : BitVec 8} {rd rs : BitVec 2} {a b8 : Byte}
    (hd : ∀ din, decodeFields ⟨op, rd, rs, 0, a, b8⟩ din = .ok i) :
    WordOf i op.toNat rd.toNat rs.toNat a.toNat b8.toNat := by
  intro din
  have hc : (⟨BitVec.ofNat 32 (cwNumber op.toNat rd.toNat rs.toNat a.toNat b8.toNat), din⟩ : Command)
      = assembled op rd rs a b8 din := by
    rw [← assembled_cw_toNat op rd rs a b8 din]
    simp [assembled]
  rw [hc, decode_assembled]
  exact hd din

/-- A name handle is its two halves (R62). -/
@[simp] theorem n16_halves (n : Name16) :
    (n.extractLsb' 8 8 : BitVec 8) ++ (n.extractLsb' 0 8 : BitVec 8) = n := by
  have := n.isLt
  rw [← BitVec.toNat_inj, append_toNat, extract_toNat, extract_toNat]
  omega

/-- A raw word survives the way over DIN (R69). -/
@[simp] theorem raw16_over_din (v : Raw16) : (v.setWidth 64).setWidth 16 = v := by
  have := v.isLt
  rw [← BitVec.toNat_inj]
  simp

/-! ## The mask and match columns (R63) -/

theorem Fields.word_and (f g : Fields) : f.word &&& g.word =
    Fields.word ⟨f.op &&& g.op, f.rd &&& g.rd, f.rs &&& g.rs, f.z &&& g.z, f.a &&& g.a,
      f.b8 &&& g.b8⟩ := by
  refine (BitVec.and_append (w := 24) (v := 8)).trans (congrArg (· ++ _) ?_)
  refine (BitVec.and_append (w := 16) (v := 8)).trans (congrArg (· ++ _) ?_)
  refine (BitVec.and_append (w := 12) (v := 4)).trans (congrArg (· ++ _) ?_)
  refine (BitVec.and_append (w := 10) (v := 2)).trans (congrArg (· ++ _) ?_)
  exact BitVec.and_append (w := 8) (v := 2)

theorem Fields.word_inj {f g : Fields} : f.word = g.word ↔ f = g :=
  ⟨fun h => by rw [← Fields.ofWord_word f, h, Fields.ofWord_word], fun h => by rw [h]⟩

theorem Format.mask_eq (fmt : Format) : fmt.mask = Fields.word
    ⟨0xFF, if fmt.usesRd then 0 else 3, if fmt.usesRs then 0 else 3, 0xF,
      if fmt.usesA then 0 else 0xFF, if fmt.usesB then 0 else 0xFF⟩ := by
  cases fmt <;> decide

theorem TableRow.matchWord_eq (r : TableRow) : r.matchWord = Fields.word ⟨r.op, 0, 0, 0, 0, 0⟩ := by
  rw [← BitVec.toNat_inj, Fields.word_toNat, TableRow.matchWord, append_toNat]
  simp

/-- A word fits a row iff it has the row's opcode and zeros where the row's format fixes them. -/
theorem TableRow.fits_iff (r : TableRow) (w : BitVec 32) :
    r.fits w = true ↔
      (Fields.ofWord w).op = r.op ∧ r.format.fixedZero (Fields.ofWord w) = true := by
  generalize hf : Fields.ofWord w = f
  have hw : w = f.word := by rw [← hf, Fields.word_ofWord]
  have h8 : ∀ v : BitVec 8, v &&& 255#8 = v := by decide
  have h2 : ∀ v : BitVec 2, v &&& 3#2 = v := by decide
  have h4 : ∀ v : BitVec 4, v &&& 15#4 = v := by decide
  subst hw
  rw [TableRow.fits, Format.mask_eq, TableRow.matchWord_eq, Fields.word_and, beq_iff_eq,
    Fields.word_inj]
  cases r.format <;>
    simp [Format.fixedZero, Format.usesRd, Format.usesRs, Format.usesA, Format.usesB, h8, h2, h4] <;>
    tauto

/-- A format that fixes no more than `z` and the fields given as zero accepts an assembled word. -/
theorem assembled_fits (r : TableRow) (rd rs : BitVec 2) (a b8 : Byte) (din : BitVec 64)
    (h : r.format.fixedZero ⟨r.op, rd, rs, 0, a, b8⟩ = true) :
    r.fits (assembled r.op rd rs a b8 din).cw = true := by
  rw [TableRow.fits_iff, assembled, Fields.ofWord_word]
  exact ⟨rfl, h⟩

end Sys2Proof
end

