-- ==== Sys2Proof/Laws/State.lean ====
section
/-!
SUPPORT. One lemma per field per update of the state, and reading and writing a file of registers.
-/

namespace Sys2Proof.Machine

/-! ## Files of four registers (R39) -/

section Quad

variable {α : Type}

@[simp] theorem Quad.get_all (v : α) (k : RegNo) : (Quad.all v).get k = v := by cases k <;> rfl

@[simp] theorem Quad.get_set_same (q : Quad α) (k : RegNo) (v : α) : (q.set k v).get k = v := by
  cases k <;> rfl

theorem Quad.get_set_other (q : Quad α) {k j : RegNo} (v : α) (h : k ≠ j) :
    (q.set k v).get j = q.get j := by
  cases k <;> cases j <;> first | rfl | exact absurd rfl h

theorem Quad.get_set (q : Quad α) (k j : RegNo) (v : α) :
    (q.set k v).get j = if k = j then v else q.get j := by
  split
  next h => rw [h, Quad.get_set_same]
  next h => exact Quad.get_set_other q v h

@[simp] theorem Quad.set_set (q : Quad α) (k : RegNo) (v w : α) :
    (q.set k v).set k w = q.set k w := by
  cases k <;> rfl

@[simp] theorem Quad.set_get (q : Quad α) (k : RegNo) : q.set k (q.get k) = q := by
  cases k <;> rfl

/-- A property of a written file: of the value written, and of the file before. -/
theorem Quad.forall_get_set {P : α → Prop} {q : Quad α} {k : RegNo} {v : α} (hv : P v)
    (hq : ∀ j, P (q.get j)) (j : RegNo) : P ((q.set k v).get j) := by
  rw [Quad.get_set]
  split
  · exact hv
  · exact hq j

end Quad

section Fields

variable (s : State)

/-! ### setB -/

@[simp] theorem State.setB_b (k : RegNo) (v : BCell) : (s.setB k v).b = s.b.set k v := rfl
@[simp] theorem State.setB_f (k : RegNo) (v : BCell) : (s.setB k v).f = s.f := rfl
@[simp] theorem State.setB_p (k : RegNo) (v : BCell) : (s.setB k v).p = s.p := rfl
@[simp] theorem State.setB_res (k : RegNo) (v : BCell) : (s.setB k v).res = s.res := rfl
@[simp] theorem State.setB_st (k : RegNo) (v : BCell) : (s.setB k v).st = s.st := rfl
@[simp] theorem State.setB_fcause (k : RegNo) (v : BCell) : (s.setB k v).fcause = s.fcause := rfl
@[simp] theorem State.setB_finfo (k : RegNo) (v : BCell) : (s.setB k v).finfo = s.finfo := rfl
@[simp] theorem State.setB_seq (k : RegNo) (v : BCell) : (s.setB k v).seq = s.seq := rfl
@[simp] theorem State.setB_slen (k : RegNo) (v : BCell) : (s.setB k v).slen = s.slen := rfl
@[simp] theorem State.setB_host (k : RegNo) (v : BCell) : (s.setB k v).host = s.host := rfl

/-! ### setF -/

@[simp] theorem State.setF_b (k : RegNo) (v : FCell) : (s.setF k v).b = s.b := rfl
@[simp] theorem State.setF_f (k : RegNo) (v : FCell) : (s.setF k v).f = s.f.set k v := rfl
@[simp] theorem State.setF_p (k : RegNo) (v : FCell) : (s.setF k v).p = s.p := rfl
@[simp] theorem State.setF_res (k : RegNo) (v : FCell) : (s.setF k v).res = s.res := rfl
@[simp] theorem State.setF_st (k : RegNo) (v : FCell) : (s.setF k v).st = s.st := rfl
@[simp] theorem State.setF_fcause (k : RegNo) (v : FCell) : (s.setF k v).fcause = s.fcause := rfl
@[simp] theorem State.setF_finfo (k : RegNo) (v : FCell) : (s.setF k v).finfo = s.finfo := rfl
@[simp] theorem State.setF_seq (k : RegNo) (v : FCell) : (s.setF k v).seq = s.seq := rfl
@[simp] theorem State.setF_slen (k : RegNo) (v : FCell) : (s.setF k v).slen = s.slen := rfl
@[simp] theorem State.setF_host (k : RegNo) (v : FCell) : (s.setF k v).host = s.host := rfl

/-! ### setP -/

@[simp] theorem State.setP_b (k : RegNo) (v : Byte) : (s.setP k v).b = s.b := rfl
@[simp] theorem State.setP_f (k : RegNo) (v : Byte) : (s.setP k v).f = s.f := rfl
@[simp] theorem State.setP_p (k : RegNo) (v : Byte) : (s.setP k v).p = s.p.set k v := rfl
@[simp] theorem State.setP_res (k : RegNo) (v : Byte) : (s.setP k v).res = s.res := rfl
@[simp] theorem State.setP_st (k : RegNo) (v : Byte) : (s.setP k v).st = s.st := rfl
@[simp] theorem State.setP_fcause (k : RegNo) (v : Byte) : (s.setP k v).fcause = s.fcause := rfl
@[simp] theorem State.setP_finfo (k : RegNo) (v : Byte) : (s.setP k v).finfo = s.finfo := rfl
@[simp] theorem State.setP_seq (k : RegNo) (v : Byte) : (s.setP k v).seq = s.seq := rfl
@[simp] theorem State.setP_slen (k : RegNo) (v : Byte) : (s.setP k v).slen = s.slen := rfl
@[simp] theorem State.setP_host (k : RegNo) (v : Byte) : (s.setP k v).host = s.host := rfl

/-! ### setRes -/

@[simp] theorem State.setRes_b (v : BitVec 64) : (s.setRes v).b = s.b := rfl
@[simp] theorem State.setRes_f (v : BitVec 64) : (s.setRes v).f = s.f := rfl
@[simp] theorem State.setRes_p (v : BitVec 64) : (s.setRes v).p = s.p := rfl
@[simp] theorem State.setRes_res (v : BitVec 64) : (s.setRes v).res = v := rfl
@[simp] theorem State.setRes_st (v : BitVec 64) : (s.setRes v).st = s.st := rfl
@[simp] theorem State.setRes_fcause (v : BitVec 64) : (s.setRes v).fcause = s.fcause := rfl
@[simp] theorem State.setRes_finfo (v : BitVec 64) : (s.setRes v).finfo = s.finfo := rfl
@[simp] theorem State.setRes_seq (v : BitVec 64) : (s.setRes v).seq = s.seq := rfl
@[simp] theorem State.setRes_slen (v : BitVec 64) : (s.setRes v).slen = s.slen := rfl
@[simp] theorem State.setRes_host (v : BitVec 64) : (s.setRes v).host = s.host := rfl

/-! ### setSeq -/

@[simp] theorem State.setSeq_b (l : List Byte) : (s.setSeq l).b = s.b := rfl
@[simp] theorem State.setSeq_f (l : List Byte) : (s.setSeq l).f = s.f := rfl
@[simp] theorem State.setSeq_p (l : List Byte) : (s.setSeq l).p = s.p := rfl
@[simp] theorem State.setSeq_res (l : List Byte) : (s.setSeq l).res = s.res := rfl
@[simp] theorem State.setSeq_st (l : List Byte) : (s.setSeq l).st = s.st := rfl
@[simp] theorem State.setSeq_fcause (l : List Byte) : (s.setSeq l).fcause = s.fcause := rfl
@[simp] theorem State.setSeq_finfo (l : List Byte) : (s.setSeq l).finfo = s.finfo := rfl
@[simp] theorem State.setSeq_seq (l : List Byte) : (s.setSeq l).seq = seqBuffer l := rfl
@[simp] theorem State.setSeq_slen (l : List Byte) : (s.setSeq l).slen = BitVec.ofNat 6 l.length := rfl
@[simp] theorem State.setSeq_host (l : List Byte) : (s.setSeq l).host = s.host := rfl

/-! ### setSt -/

@[simp] theorem State.setSt_b (v : Status) : (s.setSt v).b = s.b := rfl
@[simp] theorem State.setSt_f (v : Status) : (s.setSt v).f = s.f := rfl
@[simp] theorem State.setSt_p (v : Status) : (s.setSt v).p = s.p := rfl
@[simp] theorem State.setSt_res (v : Status) : (s.setSt v).res = s.res := rfl
@[simp] theorem State.setSt_st (v : Status) : (s.setSt v).st = v := rfl
@[simp] theorem State.setSt_fcause (v : Status) : (s.setSt v).fcause = s.fcause := rfl
@[simp] theorem State.setSt_finfo (v : Status) : (s.setSt v).finfo = s.finfo := rfl
@[simp] theorem State.setSt_seq (v : Status) : (s.setSt v).seq = s.seq := rfl
@[simp] theorem State.setSt_slen (v : Status) : (s.setSt v).slen = s.slen := rfl
@[simp] theorem State.setSt_host (v : Status) : (s.setSt v).host = s.host := rfl

/-! ### enterFault -/

@[simp] theorem State.enterFault_b (c : Cause) (i : Byte) : (s.enterFault c i).b = s.b := rfl
@[simp] theorem State.enterFault_f (c : Cause) (i : Byte) : (s.enterFault c i).f = s.f := rfl
@[simp] theorem State.enterFault_p (c : Cause) (i : Byte) : (s.enterFault c i).p = s.p := rfl
@[simp] theorem State.enterFault_res (c : Cause) (i : Byte) : (s.enterFault c i).res = s.res := rfl
@[simp] theorem State.enterFault_st (c : Cause) (i : Byte) : (s.enterFault c i).st = .fault := rfl
@[simp] theorem State.enterFault_fcause (c : Cause) (i : Byte) : (s.enterFault c i).fcause = c.code := rfl
@[simp] theorem State.enterFault_finfo (c : Cause) (i : Byte) : (s.enterFault c i).finfo = i := rfl
@[simp] theorem State.enterFault_seq (c : Cause) (i : Byte) : (s.enterFault c i).seq = s.seq := rfl
@[simp] theorem State.enterFault_slen (c : Cause) (i : Byte) : (s.enterFault c i).slen = s.slen := rfl
@[simp] theorem State.enterFault_host (c : Cause) (i : Byte) : (s.enterFault c i).host = s.host := rfl

end Fields

end Sys2Proof.Machine
end

