-- ==== Sys2Proof/Laws/Ops.lean ====
section
/-!
SUPPORT. What each shared operation can do, said once: the three outcomes of a command, and what a check
answers when the command answers a next state.
-/

namespace Sys2Proof.Machine

theorem complete_eq (s : State) : complete s = .next (s.setSt .ok) := rfl

theorem raiseFault_eq (c : Cause) (v : Byte) (s : State) :
    raiseFault c v s = .next (s.enterFault c v) := rfl

theorem failDecode_eq (s : State) : failDecode s = .next (s.setSt .decodeFail) := rfl

theorem Host_next_inj {s t : State} : (Host.Outcome.next s : Result) = .next t ↔ s = t :=
  ⟨fun h => by cases h; rfl, fun h => by rw [h]⟩

section Checks

variable (k : RegNo) (s : State) (body : Result)

@[simp] theorem requireBuilt_built : requireBuilt .built k s body = body := rfl

@[simp] theorem requireBuilt_building :
    requireBuilt .building k s body = raiseFault .builderState (registerNumber k) s := rfl

@[simp] theorem requireBuilding_building : requireBuilding .building k s body = body := rfl

@[simp] theorem requireBuilding_built :
    requireBuilding .built k s body = raiseFault .builderState (registerNumber k) s := rfl

@[simp] theorem requireElseFault_true (c : Cause) (v : Byte) :
    requireElseFault true c v s body = body := rfl

@[simp] theorem requireElseFault_false (c : Cause) (v : Byte) :
    requireElseFault false c v s body = raiseFault c v s := rfl

@[simp] theorem requireElseDecodeFail_true : requireElseDecodeFail true s body = body := rfl

@[simp] theorem requireElseDecodeFail_false : requireElseDecodeFail false s body = failDecode s := rfl

variable {k s body} {t : Tag} {s' : State} {c : Cause} {v : Byte} {ok : Bool}

/-- `require_built` lets the command go on, or faults BUILDER_STATE. -/
theorem requireBuilt_next (h : requireBuilt t k s body = .next s') :
    (t = .built ∧ body = .next s') ∨
      (t = .building ∧ s' = s.enterFault .builderState (registerNumber k)) := by
  cases t with
  | built => exact .inl ⟨rfl, h⟩
  | building => exact .inr ⟨rfl, (Host_next_inj.mp h).symm⟩

/-- `require_building` lets the command go on, or faults BUILDER_STATE. -/
theorem requireBuilding_next (h : requireBuilding t k s body = .next s') :
    (t = .building ∧ body = .next s') ∨
      (t = .built ∧ s' = s.enterFault .builderState (registerNumber k)) := by
  cases t with
  | built => exact .inr ⟨rfl, (Host_next_inj.mp h).symm⟩
  | building => exact .inl ⟨rfl, h⟩

/-- A check lets the command go on, or faults with its cause and value. -/
theorem requireElseFault_next (h : requireElseFault ok c v s body = .next s') :
    (ok = true ∧ body = .next s') ∨ (ok = false ∧ s' = s.enterFault c v) := by
  cases ok with
  | true => exact .inl ⟨rfl, h⟩
  | false => exact .inr ⟨rfl, (Host_next_inj.mp h).symm⟩

/-- A decode check lets the command go on, or fails decode. -/
theorem requireElseDecodeFail_next (h : requireElseDecodeFail ok s body = .next s') :
    (ok = true ∧ body = .next s') ∨ (ok = false ∧ s' = s.setSt .decodeFail) := by
  cases ok with
  | true => exact .inl ⟨rfl, h⟩
  | false => exact .inr ⟨rfl, (Host_next_inj.mp h).symm⟩

end Checks

/-! ## Register numbers -/

/-- FINFO reports the register's number (R171). -/
theorem registerNumber_eq (k : RegNo) : registerNumber k = BitVec.ofNat 8 k.num := by
  cases k <;> rfl

theorem registerNumber_toNat (k : RegNo) : (registerNumber k).toNat = k.num := by cases k <;> rfl

/-! ## Faults (R172) -/

/-- Two names of the state after a fault. -/
theorem enterFault_eq_faulted (s : State) (c : Cause) (v : Byte) :
    s.enterFault c v = s.faulted c.code.toNat v.toNat := by
  simp [State.enterFault, State.faulted]

/-- `require_built` of a builder (R10). -/
theorem requireBuilt_faulted {t : Tag} {k : RegNo} {s : State} {body : Result}
    (h : t = .building) : requireBuilt t k s body = .next (s.faulted 6 k.num) := by
  rw [h, requireBuilt_building, raiseFault_eq, enterFault_eq_faulted, registerNumber_toNat]
  rfl

/-- `require_building` of a finished value (R10). -/
theorem requireBuilding_faulted {t : Tag} {k : RegNo} {s : State} {body : Result}
    (h : t = .built) : requireBuilding t k s body = .next (s.faulted 6 k.num) := by
  rw [h, requireBuilding_built, raiseFault_eq, enterFault_eq_faulted, registerNumber_toNat]
  rfl

/-- A check that fails. -/
theorem requireElseFault_faulted {ok : Bool} {c : Cause} {v : Byte} {s : State} {body : Result}
    (h : ok = false) : requireElseFault ok c v s body = .next (s.faulted c.code.toNat v.toNat) := by
  rw [h, requireElseFault_false, raiseFault_eq, enterFault_eq_faulted]

/-! ## The sequence buffer (R38) -/

theorem seqBuffer_getElem (l : List Byte) (j : Fin 32) : (seqBuffer l)[j] = l.getD j 0 := by
  have hj := j.isLt
  simp only [seqBuffer, Fin.getElem_fin, Vector.getElem_mk, List.getElem_toArray, List.getElem_take]
  rw [List.getD_eq_getElem?_getD]
  by_cases h : (j : Nat) < l.length
  · rw [List.getElem_append_left h, List.getElem?_eq_getElem h]; rfl
  · rw [List.getElem_append_right (by omega), List.getElem?_eq_none (by omega)]
    exact List.getElem_replicate ..

end Sys2Proof.Machine
end

