-- ==== Sys2Proof/Laws/Operands.lean ====
section
/-!
SUPPORT. What the values of Machine/Operands.lean are, in plain arithmetic: bits and fields of a raw word,
field update, the position and interval lists and their differences.
-/

namespace Sys2Proof.Machine

/-! ## Range tests (R64) -/

@[simp] theorem indexOk_iff (a : Byte) : indexOk a = true ↔ a.toNat < 16 := decide_eq_true_iff

@[simp] theorem nibbleOk_iff (a : Byte) : nibbleOk a = true ↔ a.toNat < 16 := decide_eq_true_iff

@[simp] theorem intervalOk_iff (n : Nat) : intervalOk n = true ↔ 1 ≤ n ∧ n ≤ 16 := by
  simp [intervalOk, Config.maxInterval]

@[simp] theorem degreeOk_iff (a : Byte) : degreeOk a = true ↔ 1 ≤ a.toNat ∧ a.toNat ≤ 16 := by
  simp [degreeOk, Config.maxDegree]

@[simp] theorem accidentalOk_iff (a : Byte) : accidentalOk a = true ↔ 1 ≤ a.toNat ∧ a.toNat ≤ 4 := by
  simp [accidentalOk, Config.maxAccidental]

theorem not_indexOk (a : Byte) : indexOk a = false ↔ 16 ≤ a.toNat := by
  rw [← Bool.not_eq_true, indexOk_iff, Nat.not_lt]

theorem not_nibbleOk (a : Byte) : nibbleOk a = false ↔ 16 ≤ a.toNat := by
  rw [← Bool.not_eq_true, nibbleOk_iff, Nat.not_lt]

theorem not_intervalOk (n : Nat) : intervalOk n = false ↔ ¬ (1 ≤ n ∧ n ≤ 16) := by
  rw [← Bool.not_eq_true, intervalOk_iff]

theorem not_degreeOk (a : Byte) : degreeOk a = false ↔ ¬ (1 ≤ a.toNat ∧ a.toNat ≤ 16) := by
  rw [← Bool.not_eq_true, degreeOk_iff]

theorem not_accidentalOk (a : Byte) : accidentalOk a = false ↔ ¬ (1 ≤ a.toNat ∧ a.toNat ≤ 4) := by
  rw [← Bool.not_eq_true, accidentalOk_iff]

/-! ## Bits of a BoolVector16 (R22) -/

theorem isSet_iff_getLsbD (w : Raw16) (i : Nat) : isSet w i ↔ w.getLsbD i = true := by
  rw [isSet, BitVec.getLsbD, Nat.testBit_eq_decide_div_mod_eq, decide_eq_true_iff]

theorem bitOf_toNat (w : Raw16) (i : Nat) : (bitOf w i).toNat = w.toNat / 2 ^ i % 2 := by
  rw [bitOf, extract_toNat, Nat.pow_one]

theorem bitOf_eq_one (w : Raw16) (i : Nat) : bitOf w i = 1 ↔ isSet w i := by
  rw [← BitVec.toNat_inj, bitOf_toNat, isSet]; rfl

theorem bitOf_eq_zero (w : Raw16) (i : Nat) : bitOf w i = 0 ↔ ¬ isSet w i := by
  have h : (0 : BitVec 1).toNat = 0 := rfl
  rw [← BitVec.toNat_inj, bitOf_toNat, isSet, h]
  omega

/-- Setting a bit adds its position and no other. -/
theorem isSet_withBit (w : Raw16) {i : Nat} (hi : i < 16) (j : Nat) :
    isSet (withBit w i) j ↔ isSet w j ∨ j = i := by
  have h1 : ∀ n, (1 : Raw16).getLsbD n = decide (n = 0) := fun n => by
    rw [show (1 : Raw16) = 1#16 from rfl, BitVec.getLsbD_one]
    simp
  simp only [isSet_iff_getLsbD, withBit, BitVec.getLsbD_or, BitVec.getLsbD_shiftLeft, h1]
  by_cases h : j = i
  · simp [h, hi]
  · simp only [h, or_false, Bool.or_eq_true, Bool.and_eq_true, decide_eq_true_iff, Bool.not_eq_true',
      decide_eq_false_iff_not]
    exact ⟨fun h' => h'.resolve_right (by omega), .inl⟩

/-- A word is the set of its positions. -/
theorem raw16_ext {v w : Raw16} (h : ∀ i < 16, isSet v i ↔ isSet w i) : v = w := by
  apply BitVec.eq_of_getLsbD_eq
  intro i hi
  rw [Bool.eq_iff_iff, ← isSet_iff_getLsbD, ← isSet_iff_getLsbD]
  exact h i hi

theorem isSet_lt {w : Raw16} {i : Nat} (h : isSet w i) : i < 16 := by
  rw [isSet_iff_getLsbD] at h
  exact BitVec.lt_of_getLsbD h

/-! ## Fields of a Field16x4 (R25) -/

theorem fieldOf_toNat (w : Raw64) (i : Nat) : (fieldOf w i).toNat = slot w i := by
  rw [fieldOf, extract_toNat, slot, Nat.pow_mul]
  rfl

theorem slot_lt (w : Raw64) (i : Nat) : slot w i < 16 := Nat.mod_lt _ (by decide)

/-- A word is its sixteen fields. -/
theorem raw64_ext {v w : Raw64} (h : ∀ i < 16, slot v i = slot w i) : v = w := by
  apply BitVec.eq_of_getLsbD_eq
  intro j hj
  have hf : fieldOf v (j / 4) = fieldOf w (j / 4) := by
    rw [← BitVec.toNat_inj, fieldOf_toNat, fieldOf_toNat]
    exact h _ (by omega)
  have hb := congrArg (fun x : BitVec 4 => x.getLsbD (j % 4)) hf
  simp only [fieldOf, BitVec.getLsbD_extractLsb'] at hb
  have h4 : j % 4 < 4 := Nat.mod_lt _ (by decide)
  have hj' : 4 * (j / 4) + j % 4 = j := by omega
  rw [hj'] at hb
  simpa [h4] using hb

/-- R115: field update replaces its own field by the masked value and keeps the other fifteen. -/
theorem slot_setfield (w : Raw64) {i j : Nat} (hi : i < 16) (hj : j < 16) (v : Byte) :
    slot (setfield w i v) j = if j = i then v.toNat % 16 else slot w j := by
  have key : ∀ n < 4, (setfield w i v).getLsbD (4 * j + n)
      = if j = i then v.getLsbD n else w.getLsbD (4 * j + n) := by
    intro n hn
    have hv : (v &&& 0xF).getLsbD (4 * j + n - 4 * i)
        = (decide (4 * j + n - 4 * i < 4) && v.getLsbD (4 * j + n - 4 * i)) := by
      by_cases h : 4 * j + n - 4 * i < 4
      · generalize 4 * j + n - 4 * i = m at h
        interval_cases m <;> simp
      · have : (0xF : Byte).getLsbD (4 * j + n - 4 * i) = false := by
          generalize hm : 4 * j + n - 4 * i = m at h
          by_cases h8 : m < 8
          · interval_cases m <;> rfl
          · exact BitVec.getLsbD_of_ge _ _ (by omega)
        rw [BitVec.getLsbD_and, this]
        simp [h]
    simp only [setfield, fieldOf, BitVec.getLsbD_or, BitVec.getLsbD_xor, BitVec.getLsbD_shiftLeft,
      BitVec.getLsbD_setWidth, BitVec.getLsbD_extractLsb', hv]
    have h64 : 4 * j + n < 64 := by omega
    by_cases hji : j = i
    · subst hji
      have : 4 * j + n - 4 * j = n := by omega
      have hn64 : n < 64 := by omega
      simp [this, hn, h64, hn64]
    · rcases Nat.lt_or_gt_of_ne hji with h | h
      · have : 4 * j + n < 4 * i := by omega
        simp [this, hji]
      · have : ¬ (4 * j + n - 4 * i < 4) := by omega
        simp [this, hji]
  have hf : fieldOf (setfield w i v) j
      = if j = i then v.setWidth 4 else fieldOf w j := by
    apply BitVec.eq_of_getLsbD_eq
    intro n hn
    rw [fieldOf, BitVec.getLsbD_extractLsb', key n hn]
    split
    · simp [hn]
    · simp [fieldOf, hn]
  rw [← fieldOf_toNat, hf]
  split
  · simp
  · exact fieldOf_toNat w j

/-! ## Position and interval lists (R84, R85, R141) -/

theorem mem_positions (n : Nat) : n ∈ positions ↔ n < 16 := List.mem_range

theorem positions_sorted : positions.Pairwise (· < ·) := List.pairwise_lt_range

theorem setPositions_sorted (w : Raw16) : (setPositions w).Pairwise (· < ·) :=
  positions_sorted.filter _

theorem clearPositions_sorted (w : Raw16) : (clearPositions w).Pairwise (· < ·) :=
  positions_sorted.filter _

theorem mem_setPositions (w : Raw16) (n : Nat) : n ∈ setPositions w ↔ n < 16 ∧ isSet w n := by
  rw [setPositions, List.mem_filter, mem_positions, beq_iff_eq, bitOf_eq_one]

theorem mem_clearPositions (w : Raw16) (n : Nat) : n ∈ clearPositions w ↔ n < 16 ∧ ¬ isSet w n := by
  rw [clearPositions, List.mem_filter, mem_positions, beq_iff_eq, bitOf_eq_zero]

theorem positions_length : positions.length = 16 := rfl

theorem setPositions_length_le (w : Raw16) : (setPositions w).length ≤ 16 :=
  List.length_filter_le _ positions

theorem clearPositions_length_le (w : Raw16) : (clearPositions w).length ≤ 16 :=
  List.length_filter_le _ positions

theorem mem_ivals (w : Raw16) (n : Nat) : n ∈ ivals w ↔ inScale w n := by
  rw [ivals, List.mem_map, inScale]
  constructor
  · rintro ⟨m, hm, rfl⟩
    rw [mem_setPositions] at hm
    exact ⟨by omega, by omega, hm.2⟩
  · rintro ⟨h1, h16, hs⟩
    exact ⟨n - 1, (mem_setPositions w _).mpr ⟨by omega, hs⟩, by omega⟩

theorem ivals_sorted (w : Raw16) : (ivals w).Pairwise (· < ·) :=
  List.pairwise_map.mpr ((setPositions_sorted w).imp fun h => Nat.succ_lt_succ h)

/-- `ivals` is the interval list of the word. -/
theorem ivals_intervalList (w : Raw16) : IntervalList w (ivals w) := ⟨ivals_sorted w, mem_ivals w⟩

theorem ivals_length_le (w : Raw16) : (ivals w).length ≤ 16 := by
  rw [ivals, List.length_map]
  exact setPositions_length_le w

/-- Two ascending lists with the same members are one list. -/
theorem sorted_ext {l m : List Nat} (hl : l.Pairwise (· < ·)) (hm : m.Pairwise (· < ·))
    (h : ∀ n, n ∈ l ↔ n ∈ m) : l = m :=
  ((List.perm_ext_iff_of_nodup (hl.imp Nat.ne_of_lt) (hm.imp Nat.ne_of_lt)).mpr h).eq_of_pairwise
    (fun _ _ _ _ h₁ h₂ => absurd h₁ (Nat.lt_asymm h₂)) hl hm

/-- A word has one interval list. -/
theorem IntervalList_unique {w : Raw16} {l : List Nat} (h : IntervalList w l) : l = ivals w :=
  sorted_ext h.1 (ivals_sorted w) fun n => (h.2 n).trans (mem_ivals w n).symm

theorem pitchesFit_iff (root : Nat) (w : Raw16) :
    pitchesFit root w = true ↔ ∀ n, inScale w n → root + n ≤ 255 := by
  simp only [pitchesFit, Config.maxPitch, List.all_eq_true, decide_eq_true_iff, mem_ivals]

theorem not_pitchesFit (root : Nat) (w : Raw16) :
    pitchesFit root w = false ↔ ∃ n, inScale w n ∧ 255 < root + n := by
  rw [← Bool.not_eq_true, pitchesFit_iff]
  simp only [Classical.not_forall, Nat.not_le, exists_prop]

/-! ## Differences (R131) -/

theorem differences_length (p : Nat) (l : List Nat) : (differences p l).length = l.length := by
  induction l generalizing p with
  | nil => rfl
  | cons n l ih => rw [differences, List.length_cons, List.length_cons, ih]

/-- Each difference is taken from the element before, the first from `p`. -/
theorem differences_getD (p : Nat) (l : List Nat) (k : Nat) (hk : k < l.length) :
    (differences p l).getD k 0 = l.getD k 0 - (p :: l).getD k 0 := by
  induction l generalizing p k with
  | nil => exact absurd hk (Nat.not_lt_zero _)
  | cons n l ih =>
    cases k with
    | zero => rfl
    | succ k => exact ih n k (Nat.lt_of_succ_lt_succ hk)

theorem differences_le {p m : Nat} {l : List Nat} (h : ∀ n ∈ l, n ≤ m) :
    ∀ n ∈ differences p l, n ≤ m := by
  induction l generalizing p with
  | nil => simp [differences]
  | cons a l ih =>
    intro n hn
    rcases List.mem_cons.mp hn with rfl | hn
    · exact Nat.le_trans (Nat.sub_le a p) (h a List.mem_cons_self)
    · exact ih (fun n hn => h n (List.mem_cons_of_mem _ hn)) n hn

/-- Of an ascending list, each element is below the next. -/
theorem sorted_getD {l : List Nat} (h : l.Pairwise (· < ·)) {k : Nat} (hk : k + 1 < l.length) :
    l.getD k 0 < l.getD (k + 1) 0 := by
  have := List.pairwise_iff_getElem.mp h k (k + 1) (by omega) hk (by omega)
  rwa [List.getD_eq_getElem?_getD, List.getD_eq_getElem?_getD, List.getElem?_eq_getElem hk,
    List.getElem?_eq_getElem (by omega)]

/-! ## Whole containers as sequences (R83, R104, R152) -/

@[simp] theorem bitsOf_length (w : Raw16) : (bitsOf w).length = 16 := by
  simp [bitsOf, positions, Config.slots]

@[simp] theorem fieldsOf_length (w : Raw64) : (fieldsOf w).length = 16 := by
  simp [fieldsOf, positions, Config.slots]

theorem bitsOf_map_toNat (w : Raw16) :
    (bitsOf w).map BitVec.toNat = positions.map fun i => w.toNat / 2 ^ i % 2 := by
  rw [bitsOf, List.map_map]
  refine List.map_congr_left fun i _ => ?_
  have h2 : w.toNat / 2 ^ i % 2 < 2 := Nat.mod_lt _ (by decide)
  simp only [Function.comp, BitVec.toNat_setWidth, bitOf_toNat]
  omega

theorem fieldsOf_map_toNat (w : Raw64) : (fieldsOf w).map BitVec.toNat = positions.map (slot w) := by
  rw [fieldsOf, List.map_map]
  refine List.map_congr_left fun i _ => ?_
  have h2 := slot_lt w i
  simp only [Function.comp, BitVec.toNat_setWidth, fieldOf_toNat]
  omega

/-- The (degree number, slot value) pairs of the slots that are not 0. -/
def pairsOf (w : Raw64) : List (Nat × Nat) :=
  (positions.filter fun i => slot w i ≠ 0).map fun i => (i + 1, slot w i)

theorem mem_pairsOf (w : Raw64) (d v : Nat) :
    (d, v) ∈ pairsOf w ↔ 1 ≤ d ∧ d ≤ 16 ∧ v = slot w (d - 1) ∧ v ≠ 0 := by
  simp only [pairsOf, List.mem_map, List.mem_filter, mem_positions]
  constructor
  · rintro ⟨i, ⟨h1, h2⟩, h3⟩
    obtain ⟨rfl, rfl⟩ := Prod.mk.inj h3
    exact ⟨by omega, by omega, rfl, by simpa using h2⟩
  · rintro ⟨h1, h2, rfl, h3⟩
    exact ⟨d - 1, ⟨by omega, by simpa using h3⟩, by rw [Nat.sub_add_cancel h1]⟩

theorem pairsOf_sorted (w : Raw64) : (pairsOf w).Pairwise fun x y => x.1 < y.1 :=
  List.pairwise_map.mpr ((positions_sorted.filter _).imp fun h => Nat.succ_lt_succ h)

theorem pairsOf_length_le (w : Raw64) : (pairsOf w).length ≤ 16 := by
  rw [pairsOf, List.length_map]
  exact List.length_filter_le _ positions

/-- CDEGREES delivers the pairs, flattened. -/
theorem degreePairs_eq (w : Raw64) :
    degreePairs w = ((pairsOf w).flatMap fun x => [x.1, x.2]).map byte := by
  rw [degreePairs, pairsOf]
  induction positions with
  | nil => rfl
  | cons i l ih =>
    have h0 : fieldOf w i = 0 ↔ slot w i = 0 := by
      rw [← fieldOf_toNat, ← BitVec.toNat_inj]; rfl
    have hb : byte (slot w i) = (fieldOf w i).setWidth 8 := by
      rw [← fieldOf_toNat]; simp [byte]
    rw [List.flatMap_cons, ih]
    by_cases hs : slot w i = 0
    · simp [h0.mpr hs, hs]
    · simp only [mt h0.mp hs, if_false]
      rw [List.filter_cons_of_pos (by simpa using hs)]
      simp [hb]

/-! ## Delivering a sequence (R37, R38) -/

/-- A list of at most 32 numbers below 256 is delivered as it is. -/
theorem setSeq_delivers (s : State) (l : List Nat) (hl : l.length ≤ 32) (hb : ∀ n ∈ l, n < 256) :
    Delivers (s.setSeq (l.map byte)) l := by
  refine ⟨?_, fun j => ?_⟩
  · rw [State.setSeq_slen, List.length_map, BitVec.toNat_ofNat, Nat.mod_eq_of_lt (by omega)]
  · rw [State.setSeq_seq, seqBuffer_getElem, List.getD_eq_getElem?_getD, List.getElem?_map,
      List.getD_eq_getElem?_getD]
    cases h : l[(j : Nat)]? with
    | none => rfl
    | some n =>
      have := hb n (List.mem_of_getElem? h)
      simp only [Option.map_some, Option.getD_some, byte, BitVec.toNat_ofNat]
      omega

/-- A list of at most 32 bytes is delivered as it is. -/
theorem setSeq_delivers_bytes (s : State) (l : List Byte) (hl : l.length ≤ 32) :
    Delivers (s.setSeq l) (l.map BitVec.toNat) := by
  have h := setSeq_delivers s (l.map BitVec.toNat) (by rw [List.length_map]; exact hl) (by
    intro n hn
    obtain ⟨v, -, rfl⟩ := List.mem_map.mp hn
    exact v.isLt)
  have hb : (l.map BitVec.toNat).map byte = l := by
    rw [List.map_map]
    exact (List.map_congr_left fun v _ => by simp [byte]).trans l.map_id
  rwa [hb] at h

/-- A command that completes with this sequence delivers it. -/
theorem deliversOk_of_setSeq {s : State} {r : Result} {l : List Byte} {m : List Nat}
    (hr : r = .next ((s.setSeq l).setSt .ok)) (h : Delivers (s.setSeq l) m) : DeliversOk s r m :=
  ⟨_, hr, ⟨h.1, h.2⟩, rfl⟩

end Sys2Proof.Machine
end

