-- ==== Sys2Proof/Laws/Exec.lean ====
section
/-!
SUPPORT. What a command can do, said once: when every check of R177 lets it go on it completes with its
writes, and otherwise it has faulted or failed decode with none of them.
-/

namespace Sys2Proof.Machine

/-- Every check of the command succeeds. -/
def ready (s : State) : Instr → Bool
  | .bfromraw _ _ => true
  | .btoraw rs => (s.b.get rs).tag == .built
  | .bget rs a => (s.b.get rs).tag == .built && indexOk a
  | .biter rs => (s.b.get rs).tag == .built
  | .bidxt rs => (s.b.get rs).tag == .built
  | .bidxf rs => (s.b.get rs).tag == .built
  | .bempty _ => true
  | .bsetidx rd a => (s.b.get rd).tag == .building && indexOk a
  | .bbuild rd => (s.b.get rd).tag == .building
  | .bmov _ rs => (s.b.get rs).tag == .built
  | .ffromraw _ _ => true
  | .ftoraw rs => (s.f.get rs).tag == .built
  | .fget rs a => (s.f.get rs).tag == .built && indexOk a
  | .fset _ rs a _ => (s.f.get rs).tag == .built && indexOk a
  | .fiter rs => (s.f.get rs).tag == .built
  | .fempty _ => true
  | .fbset rd a _ => (s.f.get rd).tag == .building && indexOk a
  | .fbuild rd => (s.f.get rd).tag == .building
  | .fmov _ rs => (s.f.get rs).tag == .built
  | .ppack _ a b => nibbleOk a && nibbleOk b
  | .pfirst _ => true
  | .psecond _ => true
  | .ptoraw _ => true
  | .pmov _ _ => true
  | .sintervals rs => (s.b.get rs).tag == .built
  | .ssteps rs => (s.b.get rs).tag == .built
  | .sapply rs a => (s.b.get rs).tag == .built && pitchesFit a.toNat (s.b.get rs).raw
  | .ssetint rd a => (s.b.get rd).tag == .building && intervalOk a.toNat
  | .saddstep rd a => (s.b.get rd).tag == .building && intervalOk ((s.b.get rd).acc.toNat + a.toNat)
  | .cwithroot _ _ => true
  | .csetdeg rd a c => accidentalOk c && (s.f.get rd).tag == .building && degreeOk a
  | .cdegrees rs => (s.f.get rs).tag == .built
  | .cname rs => (s.f.get rs).tag == .built
  | .accdec a => accidentalOk a
  | .degdec a => degreeOk a

/-- The state with the writes of a command that completes, but for ST. -/
def written (s : State) : Instr → State
  | .bfromraw rd v => s.setB rd ⟨v, .built, 0⟩
  | .btoraw rs => s.setRes ((s.b.get rs).raw.setWidth 64)
  | .bget rs a => s.setRes ((bitOf (s.b.get rs).raw a.toNat).setWidth 64)
  | .biter rs => s.setSeq (bitsOf (s.b.get rs).raw)
  | .bidxt rs => s.setSeq ((setPositions (s.b.get rs).raw).map byte)
  | .bidxf rs => s.setSeq ((clearPositions (s.b.get rs).raw).map byte)
  | .bempty rd => s.setB rd ⟨0, .building, 0⟩
  | .bsetidx rd a => s.setB rd { s.b.get rd with raw := withBit (s.b.get rd).raw a.toNat }
  | .bbuild rd =>
      (s.setB rd { s.b.get rd with tag := .built }).setRes ((s.b.get rd).raw.setWidth 64)
  | .bmov rd rs => s.setB rd ⟨(s.b.get rs).raw, .built, 0⟩
  | .ffromraw rd v => s.setF rd ⟨v, .built, 0⟩
  | .ftoraw rs => s.setRes (s.f.get rs).raw
  | .fget rs a => s.setRes ((fieldOf (s.f.get rs).raw a.toNat).setWidth 64)
  | .fset rd rs a v => s.setF rd ⟨setfield (s.f.get rs).raw a.toNat v, .built, (s.f.get rs).name⟩
  | .fiter rs => s.setSeq (fieldsOf (s.f.get rs).raw)
  | .fempty rd => s.setF rd ⟨0, .building, 0⟩
  | .fbset rd a v => s.setF rd { s.f.get rd with raw := setfield (s.f.get rd).raw a.toNat v }
  | .fbuild rd => (s.setF rd { s.f.get rd with tag := .built }).setRes (s.f.get rd).raw
  | .fmov rd rs => s.setF rd ⟨(s.f.get rs).raw, .built, (s.f.get rs).name⟩
  | .ppack rd a b => s.setP rd (packPair a b)
  | .pfirst rs => s.setRes ((pairFirst (s.p.get rs)).setWidth 64)
  | .psecond rs => s.setRes ((pairSecond (s.p.get rs)).setWidth 64)
  | .ptoraw rs => s.setRes ((s.p.get rs).setWidth 64)
  | .pmov rd rs => s.setP rd (s.p.get rs)
  | .sintervals rs => s.setSeq ((ivals (s.b.get rs).raw).map byte)
  | .ssteps rs => s.setSeq ((stepsOf (s.b.get rs).raw).map byte)
  | .sapply rs a => s.setSeq ((pitches a.toNat (s.b.get rs).raw).map byte)
  | .ssetint rd a => s.setB rd { s.b.get rd with raw := withBit (s.b.get rd).raw (a.toNat - 1) }
  | .saddstep rd a => s.setB rd { s.b.get rd with
        raw := withBit (s.b.get rd).raw ((s.b.get rd).acc.toNat + a.toNat - 1),
        acc := BitVec.ofNat 5 ((s.b.get rd).acc.toNat + a.toNat) }
  | .cwithroot rd n => s.setF rd ⟨1, .building, n⟩
  | .csetdeg rd a c =>
      s.setF rd { s.f.get rd with raw := setfield (s.f.get rd).raw (a.toNat - 1) c }
  | .cdegrees rs => s.setSeq (degreePairs (s.f.get rs).raw)
  | .cname rs => s.setRes ((s.f.get rs).name.setWidth 64)
  | .accdec a => s.setRes (a.setWidth 64)
  | .degdec a => s.setRes (a.setWidth 64)

/-- A command whose checks succeed completes. -/
theorem exec_ready {i : Instr} {s : State} (h : ready s i = true) :
    exec i s = .next ((written s i).setSt .ok) := by
  cases i <;>
    simp only [ready, Bool.and_eq_true, beq_iff_eq, and_assoc] at h <;>
    first
    | rfl
    | simp only [exec, written, h, execBtoraw, execBget, execBiter, execBidxt, execBidxf, execBsetidx,
        execBbuild, execBmov, execFtoraw, execFget, execFset, execFiter, execFbset, execFbuild, execFmov,
        execPpack, execSintervals, execSsteps, execSapply, execSsetint, execSaddstep, execCsetdeg,
        execCdegrees, execCname, execAccdec, execDegdec, requireBuilt_built, requireBuilding_building,
        requireElseFault_true, requireElseDecodeFail_true, complete_eq]

/-- A command whose checks succeed answers its completed state. -/
theorem exec_ready_eq {i : Instr} {s t : State} (h : ready s i = true)
    (ht : (written s i).setSt .ok = t) : exec i s = .next t := by
  rw [exec_ready h, ht]

/-- A command with a check that fails has faulted or failed decode, with no other effect. -/
theorem exec_not_ready {i : Instr} {s t : State} (hr : ready s i = false) (h : exec i s = .next t) :
    (∃ c v, t = s.enterFault c v) ∨ t = s.setSt .decodeFail := by
  cases i <;>
    simp only [exec, execBfromraw, execBtoraw, execBget, execBiter, execBidxt, execBidxf, execBempty,
      execBsetidx, execBbuild, execBmov, execFfromraw, execFtoraw, execFget, execFset, execFiter,
      execFempty, execFbset, execFbuild, execFmov, execPpack, execPfirst, execPsecond, execPtoraw,
      execPmov, execSintervals, execSsteps, execSapply, execSsetint, execSaddstep, execCwithroot,
      execCsetdeg, execCdegrees, execCname, execAccdec, execDegdec] at h
  all_goals
    repeat' first
      | obtain ⟨_, h⟩ | ⟨_, rfl⟩ := requireBuilt_next h
      | obtain ⟨_, h⟩ | ⟨_, rfl⟩ := requireBuilding_next h
      | obtain ⟨_, h⟩ | ⟨_, rfl⟩ := requireElseFault_next h
      | obtain ⟨_, h⟩ | ⟨_, rfl⟩ := requireElseDecodeFail_next h
  all_goals
    first
    | exact .inl ⟨_, _, rfl⟩
    | exact .inr rfl
    | simp_all [ready]

/-- What a command answers: it completes, faults or fails decode. -/
theorem exec_next {i : Instr} {s t : State} (h : exec i s = .next t) :
    (ready s i = true ∧ t = (written s i).setSt .ok) ∨
      (ready s i = false ∧ ((∃ c v, t = s.enterFault c v) ∨ t = s.setSt .decodeFail)) := by
  cases hr : ready s i with
  | true => exact .inl ⟨rfl, (Host_next_inj.mp ((exec_ready hr).symm.trans h)).symm⟩
  | false => exact .inr ⟨rfl, exec_not_ready hr h⟩

end Sys2Proof.Machine
end

