-- ==== Sys2Proof/Laws/PerInstr.lean ====
section
/-!
SUPPORT. Statements made of every instruction, one lemma per constructor. `Encoding` says that the word of
the instruction fits the row of the opcode table that bears its mnemonic (R63, R65).
-/

namespace Sys2Proof.Laws.Encoding

/-- The instruction's word fits the row of its mnemonic. -/
def Statement (i : Instr) : Prop :=
  ∃ r ∈ opcodeTable, r.mnemonic = i.mnemonic ∧ r.fits (encode i).cw = true

/-- The `k`-th row is the row of the instruction. -/
theorem of_row {i : Instr} (k : Nat) (hk : k < opcodeTable.length)
    (hm : opcodeTable[k].mnemonic = i.mnemonic) {rd rs : BitVec 2} {a b8 : Byte} {din : BitVec 64}
    (he : encode i = assembled opcodeTable[k].op rd rs a b8 din)
    (hz : opcodeTable[k].format.fixedZero ⟨opcodeTable[k].op, rd, rs, 0, a, b8⟩ = true) :
    Statement i :=
  ⟨opcodeTable[k], List.getElem_mem hk, hm, by rw [he]; exact assembled_fits _ rd rs a b8 din hz⟩

theorem bfromraw (rd : RegNo) (v : Raw16) : Statement (.bfromraw rd v) :=
  of_row 0 (by decide) rfl rfl rfl

theorem btoraw (rs : RegNo) : Statement (.btoraw rs) :=
  of_row 1 (by decide) rfl rfl rfl

theorem bget (rs : RegNo) (a : Byte) : Statement (.bget rs a) :=
  of_row 2 (by decide) rfl rfl rfl

theorem biter (rs : RegNo) : Statement (.biter rs) :=
  of_row 3 (by decide) rfl rfl rfl

theorem bidxt (rs : RegNo) : Statement (.bidxt rs) :=
  of_row 4 (by decide) rfl rfl rfl

theorem bidxf (rs : RegNo) : Statement (.bidxf rs) :=
  of_row 5 (by decide) rfl rfl rfl

theorem bempty (rd : RegNo) : Statement (.bempty rd) :=
  of_row 6 (by decide) rfl rfl rfl

theorem bsetidx (rd : RegNo) (a : Byte) : Statement (.bsetidx rd a) :=
  of_row 7 (by decide) rfl rfl rfl

theorem bbuild (rd : RegNo) : Statement (.bbuild rd) :=
  of_row 8 (by decide) rfl rfl rfl

theorem bmov (rd : RegNo) (rs : RegNo) : Statement (.bmov rd rs) :=
  of_row 9 (by decide) rfl rfl rfl

theorem ffromraw (rd : RegNo) (v : Raw64) : Statement (.ffromraw rd v) :=
  of_row 10 (by decide) rfl rfl rfl

theorem ftoraw (rs : RegNo) : Statement (.ftoraw rs) :=
  of_row 11 (by decide) rfl rfl rfl

theorem fget (rs : RegNo) (a : Byte) : Statement (.fget rs a) :=
  of_row 12 (by decide) rfl rfl rfl

theorem fset (rd : RegNo) (rs : RegNo) (a : Byte) (b : Byte) : Statement (.fset rd rs a b) :=
  of_row 13 (by decide) rfl rfl rfl

theorem fiter (rs : RegNo) : Statement (.fiter rs) :=
  of_row 14 (by decide) rfl rfl rfl

theorem fempty (rd : RegNo) : Statement (.fempty rd) :=
  of_row 15 (by decide) rfl rfl rfl

theorem fbset (rd : RegNo) (a : Byte) (b : Byte) : Statement (.fbset rd a b) :=
  of_row 16 (by decide) rfl rfl rfl

theorem fbuild (rd : RegNo) : Statement (.fbuild rd) :=
  of_row 17 (by decide) rfl rfl rfl

theorem fmov (rd : RegNo) (rs : RegNo) : Statement (.fmov rd rs) :=
  of_row 18 (by decide) rfl rfl rfl

theorem ppack (rd : RegNo) (a : Byte) (b : Byte) : Statement (.ppack rd a b) :=
  of_row 19 (by decide) rfl rfl rfl

theorem pfirst (rs : RegNo) : Statement (.pfirst rs) :=
  of_row 20 (by decide) rfl rfl rfl

theorem psecond (rs : RegNo) : Statement (.psecond rs) :=
  of_row 21 (by decide) rfl rfl rfl

theorem ptoraw (rs : RegNo) : Statement (.ptoraw rs) :=
  of_row 22 (by decide) rfl rfl rfl

theorem pmov (rd : RegNo) (rs : RegNo) : Statement (.pmov rd rs) :=
  of_row 23 (by decide) rfl rfl rfl

theorem sintervals (rs : RegNo) : Statement (.sintervals rs) :=
  of_row 24 (by decide) rfl rfl rfl

theorem ssteps (rs : RegNo) : Statement (.ssteps rs) :=
  of_row 25 (by decide) rfl rfl rfl

theorem sapply (rs : RegNo) (a : Byte) : Statement (.sapply rs a) :=
  of_row 26 (by decide) rfl rfl rfl

theorem ssetint (rd : RegNo) (a : Byte) : Statement (.ssetint rd a) :=
  of_row 27 (by decide) rfl rfl rfl

theorem saddstep (rd : RegNo) (a : Byte) : Statement (.saddstep rd a) :=
  of_row 28 (by decide) rfl rfl rfl

theorem cwithroot (rd : RegNo) (n : Name16) : Statement (.cwithroot rd n) :=
  of_row 29 (by decide) rfl rfl rfl

theorem csetdeg (rd : RegNo) (a : Byte) (b : Byte) : Statement (.csetdeg rd a b) :=
  of_row 30 (by decide) rfl rfl rfl

theorem cdegrees (rs : RegNo) : Statement (.cdegrees rs) :=
  of_row 31 (by decide) rfl rfl rfl

theorem cname (rs : RegNo) : Statement (.cname rs) :=
  of_row 32 (by decide) rfl rfl rfl

theorem accdec (a : Byte) : Statement (.accdec a) :=
  of_row 33 (by decide) rfl rfl rfl

theorem degdec (a : Byte) : Statement (.degdec a) :=
  of_row 34 (by decide) rfl rfl rfl

end Sys2Proof.Laws.Encoding
end

