-- ==== Sys2Proof/Laws/Step.lean ====
section
/-!
SUPPORT. What a step does with the host's next event, and how runs go on from a step.
-/

namespace Sys2Proof.Machine

theorem code_bounds (c : Cause) : 1 ≤ c.code.toNat ∧ c.code.toNat ≤ 7 := by cases c <;> decide

/-- No command touches the host's list. -/
theorem exec_host {i : Instr} {s t : State} (h : exec i s = .next t) : t.host = s.host := by
  obtain ⟨_, rfl⟩ | ⟨_, ⟨c, v, rfl⟩ | rfl⟩ := exec_next h
  · cases i <;> rfl
  · rfl
  · rfl

/-! ## Presenting a command (R73) -/

theorem op_toNat (c : Command) : c.op.toNat = c.cw.toNat / 2 ^ 24 := by
  have := c.cw.isLt
  simp only [Command.op, Fields.ofWord, extract_toNat]
  omega

theorem present_halted {s : State} (c : Command) (hs : s.st = .fault) : present c s = .next s := by
  unfold present
  rw [hs]

theorem present_ok {s : State} {c : Command} {i : Instr} (hs : s.st ≠ .fault)
    (h : decode c = .ok i) : present c s = exec i s := by
  unfold present
  split
  · contradiction
  · rw [h]
  · rw [h]

theorem present_error {s : State} {c : Command} {e : Illegal} (hs : s.st ≠ .fault)
    (h : decode c = .error e) : present c s = .next (s.enterFault .illegalCommand c.op) := by
  unfold present
  split
  · contradiction
  · rw [h]; rfl
  · rw [h]; rfl

/-! ## The host's next event -/

theorem step_nil {s : State} (h : s.host = []) : step s = .next s := by
  unfold step serve
  rw [h]

theorem step_cons {s : State} {e : HostEvent} {rest : List HostEvent} (h : s.host = e :: rest) :
    step s = runEvent e { s with host := rest } := by
  unfold step serve
  rw [h]

/-- A command that can complete, presented to a unit that is not halted, completes. -/
theorem step_ready {s : State} {c : Command} {i : Instr} {rest : List HostEvent} (hs : s.st ≠ .fault)
    (hh : s.host = .present c :: rest) (hd : decode c = .ok i) (hr : ready s i = true) :
    step s = .next ((written { s with host := rest } i).setSt .ok) := by
  rw [step_cons hh]
  refine (present_ok (s := { s with host := rest }) hs hd).trans (exec_ready ?_)
  cases i <;> exact hr

/-! ## Runs -/

@[simp] theorem runFor_zero (s : State) : runFor 0 s = .next s := rfl

theorem runFor_succ {s t : State} (n : Nat) (h : step s = .next t) :
    runFor (n + 1) s = runFor n t := by
  rw [runFor, h]

/-- A run of `m + n` steps is a run of `m` and then one of `n`. -/
theorem runFor_add {s t : State} {m : Nat} (n : Nat) (h : runFor m s = .next t) :
    runFor (m + n) s = runFor n t := by
  induction m generalizing s with
  | zero => rw [Nat.zero_add, Host_next_inj.mp h]
  | succ m ih =>
    cases hs : step s with
    | next u =>
      rw [runFor_succ m hs] at h
      rw [Nat.succ_add, runFor_succ _ hs, ih h]
    | fault r => rw [runFor, hs] at h; cases h
    | refused r => rw [runFor, hs] at h; cases h

end Sys2Proof.Machine
end

