-- ==== Sys2Proof/Tests/Slice0.lean ====
section
/-!
SUPPORT. Tests of the model. Expected values come from spec/: the words of the decode tests from the fields of
R62 and R63 and the opcodes of R65, the results from the vectors of 95_test_vectors.md (TV-) or from the
rule named. `witness_<statement>` shows that the hypotheses of a statement can be met, each clause of it.
-/

namespace Sys2Proof.Tests

open Sys2Proof Sys2Proof.Machine

/-- In b and f, registers 0 and 2 hold finished values and registers 1 and 3 builders; b1 has running
total 12, and f0 and f2 are named. -/
def mix : State := { State.reset with
  b := ⟨⟨0x0D5A, .built, 0⟩, ⟨0x0800, .building, 12⟩, ⟨0x8001, .built, 0⟩, ⟨0, .building, 0⟩⟩,
  f := ⟨⟨0xFEDCBA9876543210, .built, 7⟩, ⟨1, .building, 1⟩, ⟨0x10101, .built, 1⟩, ⟨0, .building, 0⟩⟩,
  p := ⟨0x5A, 0, 0, 0⟩ }

/-- `mix` with the host presenting these commands. -/
def mixWith (l : List Command) : State := { mix with host := l.map .present }

/-- The state a result goes on in. -/
def out : Result → State
  | .next t => t
  | .fault f => nomatch f
  | .refused _ => State.reset

/-- The result is a next state with this property. -/
def nextWith (r : Result) (p : State → Bool) : Bool :=
  match r with
  | .next t => p t
  | .fault _ | .refused _ => false

/-- The list in SEQ. -/
def delivered (r : Result) : List Nat :=
  ((out r).seq.toList.take (out r).slen.toNat).map BitVec.toNat

/-! ## Well-formedness: a word with each fault is refused -/

/-- TV-E1, R67. -/
theorem test_ill_formed_unknown_opcode :
    (⟨0x00000000, 0⟩ : Command).wellFormed = false := by decide

/-- TV-E2. -/
theorem test_ill_formed_opcode_after_family :
    (⟨0x1A000000, 0⟩ : Command).wellFormed = false := by decide

/-- TV-E5: BGET with rd 1. -/
theorem test_ill_formed_rd_unused :
    (⟨0x12400000, 0⟩ : Command).wellFormed = false := by decide

/-- TV-E8: ACCDEC with rs 1. -/
theorem test_ill_formed_rs_unused :
    (⟨0x54100400, 0⟩ : Command).wellFormed = false := by decide

/-- TV-E7: BGET with z 1. -/
theorem test_ill_formed_z_set :
    (⟨0x12010F00, 0⟩ : Command).wellFormed = false := by decide

/-- TV-E6: BTORAW with a 1. -/
theorem test_ill_formed_a_unused :
    (⟨0x11000100, 0⟩ : Command).wellFormed = false := by decide

/-- TV-E10: BMOV with b8 1. -/
theorem test_ill_formed_b8_unused :
    (⟨0x19000001, 0⟩ : Command).wellFormed = false := by decide

/-- TV-E12: the same word with that field zero is a command. -/
theorem test_well_formed : (⟨0x12000F00, 0⟩ : Command).wellFormed = true := by decide

/-- R64: a value outside the legal range does not make an instruction ill-formed. -/
theorem test_well_formed_out_of_range : (Instr.bget .r0 255).wellFormed = true := by decide

/-! ## The assembler (R70, R71) -/

/-- TV-S12, with a comment. -/
theorem test_assemble_csetdeg :
    Asm.assembleText "CSETDEG f0, #5, #flat ; the fifth" = some (.ok ⟨0x51000502, 0⟩) := by decide

/-- TV-B1. -/
theorem test_assemble_bfromraw :
    Asm.assembleText "BFROMRAW b0, =0xA5C3" = some (.ok ⟨0x10000000, 0xA5C3⟩) := by decide

/-- TV-B9: out of the legal range, assembled all the same. -/
theorem test_assemble_bget_255 :
    Asm.assembleText "BGET b0, #255" = some (.ok ⟨0x1200FF00, 0⟩) := by decide

/-- R71. -/
theorem test_assemble_pseudo :
    Asm.assembleText "CBUILD f0" = some (.ok ⟨0x27000000, 0⟩) := by decide

theorem test_assemble_comment : Asm.assembleText "  ; nothing" = none := by decide

/-- TV-S2, and the same number in small letters (log entry 9). -/
theorem test_assemble_hexadecimal :
    Asm.assembleText "FFROMRAW f0, =0xFEDCBA9876543210" = some (.ok ⟨0x20000000, 0xFEDCBA9876543210⟩) ∧
    Asm.assembleText "FFROMRAW f0, =0xfedcba9876543210" =
      some (.ok ⟨0x20000000, 0xFEDCBA9876543210⟩) ∧
    Asm.assembleText "BGET b0, #1A" = some (.error .badSpelling) := by decide

/-- Each of these lines is rejected, and for its own reason (R70; log entry 9 for the reasons R70 does not
name, a raw64 above 64 bits among them). -/
theorem test_assemble_rejects :
    Asm.assembleText "BPUT b0, #1" = some (.error .unknownMnemonic) ∧
    Asm.assembleText "BGET f0, #1" = some (.error .wrongOperands) ∧
    Asm.assembleText "BGET b0" = some (.error .wrongOperands) ∧
    Asm.assembleText "BGET b4, #1" = some (.error .registerNumber) ∧
    Asm.assembleText "BGET b0, #256" = some (.error .immediateWidth) ∧
    Asm.assembleText "BFROMRAW b0, =0x10000" = some (.error .dataWidth) ∧
    Asm.assembleText "FFROMRAW f0, =0x10000000000000000" = some (.error .dataWidth) ∧
    Asm.assembleText "BGET b0, 1" = some (.error .badSpelling) := by decide

/-! ## Decoding: a word of every command -/

theorem test_decode_bfromraw :
    decode ⟨0b00010000_01_00_0000_00000000_00000000, 0xFFFFFFFFFFFF1234⟩ =
      .ok (.bfromraw .r1 0x1234) := by decide

theorem test_decode_btoraw :
    decode ⟨0b00010001_00_11_0000_00000000_00000000, 0⟩ =
      .ok (.btoraw .r3) := by decide

theorem test_decode_bget :
    decode ⟨0b00010010_00_10_0000_00001111_00000000, 0⟩ =
      .ok (.bget .r2 15) := by decide

theorem test_decode_biter :
    decode ⟨0b00010011_00_10_0000_00000000_00000000, 0⟩ =
      .ok (.biter .r2) := by decide

theorem test_decode_bidxt :
    decode ⟨0b00010100_00_01_0000_00000000_00000000, 0⟩ =
      .ok (.bidxt .r1) := by decide

theorem test_decode_bidxf :
    decode ⟨0b00010101_00_11_0000_00000000_00000000, 0⟩ =
      .ok (.bidxf .r3) := by decide

theorem test_decode_bempty :
    decode ⟨0b00010110_01_00_0000_00000000_00000000, 0xFFFFFFFFFFFFFFFF⟩ =
      .ok (.bempty .r1) := by decide

theorem test_decode_bsetidx :
    decode ⟨0b00010111_10_00_0000_11001000_00000000, 0⟩ =
      .ok (.bsetidx .r2 200) := by decide

theorem test_decode_bbuild :
    decode ⟨0b00011000_11_00_0000_00000000_00000000, 0⟩ =
      .ok (.bbuild .r3) := by decide

theorem test_decode_bmov :
    decode ⟨0b00011001_01_10_0000_00000000_00000000, 0⟩ =
      .ok (.bmov .r1 .r2) := by decide

theorem test_decode_ffromraw :
    decode ⟨0b00100000_10_00_0000_00000000_00000000, 0xFEDCBA9876543210⟩ =
      .ok (.ffromraw .r2 0xFEDCBA9876543210) := by decide

theorem test_decode_ftoraw :
    decode ⟨0b00100001_00_01_0000_00000000_00000000, 0⟩ =
      .ok (.ftoraw .r1) := by decide

theorem test_decode_fget :
    decode ⟨0b00100010_00_01_0000_00000101_00000000, 0⟩ =
      .ok (.fget .r1 5) := by decide

theorem test_decode_fset :
    decode ⟨0b00100011_01_10_0000_00000011_11111010, 0⟩ =
      .ok (.fset .r1 .r2 3 0xFA) := by decide

theorem test_decode_fiter :
    decode ⟨0b00100100_00_11_0000_00000000_00000000, 0⟩ =
      .ok (.fiter .r3) := by decide

theorem test_decode_fempty :
    decode ⟨0b00100101_11_00_0000_00000000_00000000, 0⟩ =
      .ok (.fempty .r3) := by decide

theorem test_decode_fbset :
    decode ⟨0b00100110_01_00_0000_00001111_00010000, 0⟩ =
      .ok (.fbset .r1 15 16) := by decide

theorem test_decode_fbuild :
    decode ⟨0b00100111_10_00_0000_00000000_00000000, 0⟩ =
      .ok (.fbuild .r2) := by decide

theorem test_decode_fmov :
    decode ⟨0b00101000_11_01_0000_00000000_00000000, 0⟩ =
      .ok (.fmov .r3 .r1) := by decide

theorem test_decode_ppack :
    decode ⟨0b00110000_01_00_0000_00001010_00000101, 0⟩ =
      .ok (.ppack .r1 10 5) := by decide

theorem test_decode_pfirst :
    decode ⟨0b00110001_00_01_0000_00000000_00000000, 0⟩ =
      .ok (.pfirst .r1) := by decide

theorem test_decode_psecond :
    decode ⟨0b00110010_00_10_0000_00000000_00000000, 0⟩ =
      .ok (.psecond .r2) := by decide

theorem test_decode_ptoraw :
    decode ⟨0b00110011_00_11_0000_00000000_00000000, 0⟩ =
      .ok (.ptoraw .r3) := by decide

theorem test_decode_pmov :
    decode ⟨0b00110100_10_01_0000_00000000_00000000, 0⟩ =
      .ok (.pmov .r2 .r1) := by decide

theorem test_decode_sintervals :
    decode ⟨0b01000000_00_01_0000_00000000_00000000, 0⟩ =
      .ok (.sintervals .r1) := by decide

theorem test_decode_ssteps :
    decode ⟨0b01000001_00_10_0000_00000000_00000000, 0⟩ =
      .ok (.ssteps .r2) := by decide

theorem test_decode_sapply :
    decode ⟨0b01000010_00_01_0000_00111100_00000000, 0⟩ =
      .ok (.sapply .r1 60) := by decide

theorem test_decode_ssetint :
    decode ⟨0b01000011_11_00_0000_00010001_00000000, 0⟩ =
      .ok (.ssetint .r3 17) := by decide

theorem test_decode_saddstep :
    decode ⟨0b01000100_01_00_0000_00000010_00000000, 0⟩ =
      .ok (.saddstep .r1 2) := by decide

theorem test_decode_cwithroot :
    decode ⟨0b01010000_11_00_0000_10111110_11101111, 0⟩ =
      .ok (.cwithroot .r3 0xBEEF) := by decide

theorem test_decode_csetdeg :
    decode ⟨0b01010001_10_00_0000_00000111_00000100, 0⟩ =
      .ok (.csetdeg .r2 7 4) := by decide

theorem test_decode_cdegrees :
    decode ⟨0b01010010_00_01_0000_00000000_00000000, 0⟩ =
      .ok (.cdegrees .r1) := by decide

theorem test_decode_cname :
    decode ⟨0b01010011_00_11_0000_00000000_00000000, 0⟩ =
      .ok (.cname .r3) := by decide

theorem test_decode_accdec :
    decode ⟨0b01010100_00_00_0000_00000100_00000000, 0⟩ =
      .ok (.accdec 4) := by decide

theorem test_decode_degdec :
    decode ⟨0b01010101_00_00_0000_00010000_00000000, 0⟩ =
      .ok (.degdec 16) := by decide

/-- R63: the match word of every row is the row's command. -/
theorem test_decode_match_words : ∀ r ∈ opcodeTable,
    (decodeTableWord 32 r.matchWord.toNat).map Instr.mnemonic = some r.mnemonic := by decide

/-- DIN counts on from CW. -/
theorem test_decodeTableWord :
    decodeTableWord 96 0x0AD610800000 = some (.bfromraw .r2 0x0AD6) ∧
    decodeTableWord 32 0x0AD610800000 = some (.bfromraw .r2 0) ∧
    decodeTableWord 32 0x12400000 = none := by decide

/-! ## The step -/

/-- A command placed for the next step is the command that step runs, first after reset. -/
theorem test_withFetchWord :
    ((out (step (State.reset.withFetchWord 96 0x0AD610800000))).b.get .r2).raw = 0x0AD6 := by decide

/-- TV-E5. -/
theorem test_illegal_word :
    out (step (mixWith [⟨0x12400000, 0⟩])) = mix.faulted 1 0x12 := by decide

/-- TV-X4: a halted unit does nothing. -/
theorem test_halted :
    out (step ((mix.faulted 2 16).withFetchWord 96 0x123410400000)) = mix.faulted 2 16 := by decide

/-- R190: reset of a halted unit. -/
theorem test_reset :
    out (step { mix.faulted 2 16 with host := [.reset] }) = State.reset := by decide

/-! ## Results -/

/-- TV-B4: a builder is overwritten. -/
theorem test_bfromraw :
    ((out (exec (.bfromraw .r1 0) mix)).b.get .r1) = ⟨0x0000, .built, 0⟩ := by decide

/-- TV-S7. -/
theorem test_btoraw : (out (exec (.btoraw .r0) mix)).res = 0x0D5A := by decide

/-- TV-B26. -/
theorem test_btoraw_builder : out (exec (.btoraw .r3) mix) = mix.faulted 6 3 := by decide

/-- TV-B6. -/
theorem test_bget_15 : (out (exec (.bget .r2 15) mix)).res = 1 := by decide

/-- TV-B8. -/
theorem test_bget_16 : out (exec (.bget .r2 16) mix) = mix.faulted 2 16 := by decide

/-- TV-B11. -/
theorem test_biter :
    delivered (exec (.biter .r0) mix) = [0, 1, 0, 1, 1, 0, 1, 0, 1, 0, 1, 1, 0, 0, 0, 0] := by decide

/-- TV-B12. -/
theorem test_bidxt : delivered (exec (.bidxt .r0) mix) = [1, 3, 4, 6, 8, 10, 11] := by decide

/-- TV-B13. -/
theorem test_bidxf :
    delivered (exec (.bidxf .r0) mix) = [0, 2, 5, 7, 9, 12, 13, 14, 15] := by decide

/-- TV-B17. -/
theorem test_bempty :
    ((out (exec (.bempty .r0) mix)).b.get .r0) = ⟨0x0000, .building, 0⟩ := by decide

/-- TV-B19: bit 15, the total untouched (R87). -/
theorem test_bsetidx :
    ((out (exec (.bsetidx .r1 15) mix)).b.get .r1) = ⟨0x8800, .building, 12⟩ := by decide

/-- TV-B21. -/
theorem test_bsetidx_16 : out (exec (.bsetidx .r1 16) mix) = mix.faulted 2 16 := by decide

/-- TV-SC34: the total survives the build. -/
theorem test_bbuild :
    ((out (exec (.bbuild .r1) mix)).b.get .r1) = ⟨0x0800, .built, 12⟩ ∧
      (out (exec (.bbuild .r1) mix)).res = 0x800 := by decide

/-- TV-B24: a finished register. -/
theorem test_bbuild_twice : out (exec (.bbuild .r2) mix) = mix.faulted 6 2 := by decide

/-- R89: into a builder, whose total becomes 0. -/
theorem test_bmov : ((out (exec (.bmov .r1 .r2) mix)).b.get .r1) = ⟨0x8001, .built, 0⟩ := by decide

/-- R100: the name becomes 0. -/
theorem test_ffromraw :
    ((out (exec (.ffromraw .r1 0xF000000000000050) mix)).f.get .r1) =
      ⟨0xF000000000000050, .built, 0⟩ := by decide

/-- TV-S2. -/
theorem test_ftoraw : (out (exec (.ftoraw .r0) mix)).res = 0xFEDCBA9876543210 := by decide

/-- TV-S3: field j holds j. -/
theorem test_fget : (out (exec (.fget .r0 15) mix)).res = 15 := by decide

/-- R102: the builder state before the index. -/
theorem test_fget_builder : out (exec (.fget .r3 16) mix) = mix.faulted 6 3 := by decide

/-- TV-F10, and TV-F17 for the name. -/
theorem test_fset :
    ((out (exec (.fset .r1 .r0 3 0xFA) mix)).f.get .r1) = ⟨0xFEDCBA987654A210, .built, 7⟩ := by decide

/-- TV-F16: source and destination are one register. -/
theorem test_fset_same :
    ((out (exec (.fset .r0 .r0 8 0) mix)).f.get .r0) = ⟨0xFEDCBA9076543210, .built, 7⟩ := by decide

/-- TV-F18. -/
theorem test_fiter :
    delivered (exec (.fiter .r0) mix) =
      [0, 1, 2, 3, 4, 5, 6, 7, 8, 9, 10, 11, 12, 13, 14, 15] := by decide

/-- TV-F19. -/
theorem test_fempty : ((out (exec (.fempty .r0) mix)).f.get .r0) = ⟨0, .building, 0⟩ := by decide

/-- TV-F22: the value is masked. -/
theorem test_fbset :
    ((out (exec (.fbset .r1 0 0x21) mix)).f.get .r1) = ⟨0x0000000000000001, .building, 1⟩ := by decide

/-- TV-F23. -/
theorem test_fbset_16 : out (exec (.fbset .r1 16 1) mix) = mix.faulted 2 16 := by decide

/-- R107: the name stays. -/
theorem test_fbuild :
    ((out (exec (.fbuild .r1) mix)).f.get .r1) = ⟨1, .built, 1⟩ ∧
      (out (exec (.fbuild .r1) mix)).res = 1 := by decide

/-- TV-F30: copied with its name. -/
theorem test_fmov :
    ((out (exec (.fmov .r3 .r0) mix)).f.get .r3) = ⟨0xFEDCBA9876543210, .built, 7⟩ := by decide

/-- TV-P1. -/
theorem test_ppack : ((out (exec (.ppack .r2 10 5) mix)).p.get .r2) = 0x5A := by decide

/-- TV-P8: the first operand is reported. -/
theorem test_ppack_both : out (exec (.ppack .r2 16 17) mix) = mix.faulted 3 16 := by decide

/-- TV-P10. -/
theorem test_pfirst : (out (exec (.pfirst .r0) mix)).res = 0xA := by decide

/-- TV-P11. -/
theorem test_psecond : (out (exec (.psecond .r0) mix)).res = 0x5 := by decide

/-- TV-P12. -/
theorem test_ptoraw : (out (exec (.ptoraw .r0) mix)).res = 0x5A := by decide

/-- TV-P13. -/
theorem test_pmov : ((out (exec (.pmov .r3 .r0) mix)).p.get .r3) = 0x5A := by decide

/-- TV-SC1. -/
theorem test_sintervals :
    delivered (exec (.sintervals .r0) mix) = [2, 4, 5, 7, 9, 11, 12] := by decide

/-- TV-SC2. -/
theorem test_ssteps : delivered (exec (.ssteps .r0) mix) = [2, 2, 1, 2, 2, 2, 1] := by decide

/-- TV-SC5. -/
theorem test_sapply_243 :
    delivered (exec (.sapply .r0 243) mix) = [243, 245, 247, 248, 250, 252, 254, 255] := by decide

/-- TV-SC6. -/
theorem test_sapply_244 : out (exec (.sapply .r0 244) mix) = mix.faulted 7 244 := by decide

/-- TV-SC20. -/
theorem test_ssetint_16 :
    ((out (exec (.ssetint .r3 16) mix)).b.get .r3) = ⟨0x8000, .building, 0⟩ := by decide

/-- TV-SC21. -/
theorem test_ssetint_0 : out (exec (.ssetint .r3 0) mix) = mix.faulted 4 0 := by decide

/-- TV-SC29, from total 12. -/
theorem test_saddstep_16 :
    ((out (exec (.saddstep .r1 4) mix)).b.get .r1) = ⟨0x8800, .building, 16⟩ := by decide

/-- TV-SC31: the delta is reported. -/
theorem test_saddstep_17 : out (exec (.saddstep .r1 5) mix) = mix.faulted 4 5 := by decide

/-- TV-C2. -/
theorem test_cwithroot :
    ((out (exec (.cwithroot .r3 0xBEEF) mix)).f.get .r3) = ⟨1, .building, 0xBEEF⟩ := by decide

/-- TV-C7. -/
theorem test_csetdeg_16 :
    ((out (exec (.csetdeg .r1 16 3) mix)).f.get .r1) = ⟨0x3000000000000001, .building, 1⟩ := by decide

/-- TV-C14: the code is decoded first. -/
theorem test_csetdeg_code : (out (exec (.csetdeg .r0 0 9) mix)) = mix.setSt .decodeFail := by decide

/-- TV-C17. -/
theorem test_cdegrees : delivered (exec (.cdegrees .r2) mix) = [1, 1, 3, 1, 5, 1] := by decide

/-- TV-F30. -/
theorem test_cname : (out (exec (.cname .r0) mix)).res = 7 := by decide

/-- TV-C26. -/
theorem test_accdec_4 :
    (out (exec (.accdec 4) mix)).res = 4 ∧ (out (exec (.accdec 4) mix)).st = .ok := by decide

/-- TV-C27. -/
theorem test_accdec_0 : (out (exec (.accdec 0) mix)) = mix.setSt .decodeFail := by decide

/-- TV-C32. -/
theorem test_degdec_16 :
    (out (exec (.degdec 16) mix)).res = 16 ∧ (out (exec (.degdec 16) mix)).st = .ok := by decide

/-- TV-C34. -/
theorem test_degdec_17 : (out (exec (.degdec 17) mix)) = mix.setSt .decodeFail := by decide

/-! ## Witnesses: encoding -/

theorem witness_EncodeOfDecode :
    decode ⟨0x10400000, 0xFFFFFFFFFFFF1234⟩ = .ok (.bfromraw .r1 0x1234) ∧
    decode ⟨0x20400000, 5⟩ = .ok (.ffromraw .r1 5) ∧
    decode ⟨0x12100F00, 5⟩ = .ok (.bget .r1 15) := by decide

theorem witness_WordIsCommandIffOneRowFits :
    decode ⟨0x12100F00, 0⟩ = .ok (.bget .r1 15) ∧
    (opcodeTable.filter (·.fits 0x12100F00)).map (·.mnemonic) = ["BGET"] ∧
    (opcodeTable.filter (·.fits 0x12400000)).map (·.mnemonic) = [] := by decide

theorem witness_IllegalWordFaults :
    (mixWith [⟨0x12400000, 0⟩]).host = [.present ⟨0x12400000, 0⟩] ∧ mix.st ≠ .fault ∧
    ∀ r ∈ opcodeTable, r.fits 0x12400000 = false := by decide

theorem witness_DinIgnored :
    (0x12100F00 : BitVec 32).toNat / 2 ^ 24 ≠ 0x10 ∧ (0x12100F00 : BitVec 32).toNat / 2 ^ 24 ≠ 0x20 ∧
    (0x10400000 : BitVec 32).toNat / 2 ^ 24 = 0x10 ∧
    (0x51234 : BitVec 64).toNat % 2 ^ 16 = (0x1234 : BitVec 64).toNat % 2 ^ 16 := by decide

theorem witness_AssembledLineDecodes :
    Asm.assemble ⟨"SEMPTY", [.reg .b 1]⟩ = .ok ⟨0x16400000, 0⟩ ∧
    Asm.assemble ⟨"BFROMRAW", [.reg .b 3, .data 0xFFFF]⟩ = .ok ⟨0x10C00000, 0xFFFF⟩ := by decide

theorem witness_PseudoInstructionsExpand :
    "BGET" ∉ ["SFROMRAW", "STORAW", "SEMPTY", "SBUILD", "CBUILD", "CTORAW"] := by decide

/-! ## Witnesses: the step, reset and runs -/

theorem witness_StepRunsDecodedCommand :
    (mix.faulted 2 16).st = .fault ∧ mix.st ≠ .fault ∧
    (mixWith [⟨0, 0⟩]).host = .present ⟨0, 0⟩ :: [] ∧
    decode ⟨0, 0⟩ = .error (.reservedOpcode 0) ∧
    decode ⟨0x16400000, 0⟩ = .ok (.bempty .r1) := by decide

theorem witness_HaltedUntilReset :
    (mix.faulted 2 16).st = .fault ∧ ∀ e ∈ (mixWith [⟨0, 0⟩, ⟨0x16400000, 0⟩]).host, e ≠ .reset := by
  decide

theorem witness_ResetValues : ({ mix.faulted 2 16 with host := [.reset] } : State).host = .reset :: [] :=
  rfl

theorem witness_EveryStepAnswersNext : mix.host = [] := rfl

/-- SADDSTEP from a state that meets the invariant and that no run from reset has to reach. -/
theorem witness_StepKeepsInvariant :
    Inv (mixWith [encode (.saddstep .r1 4)]) ∧
    nextWith (step (mixWith [encode (.saddstep .r1 4)])) (fun t => (t.b.get .r1).acc == 16) := by
  refine ⟨⟨fun k => ?_, ⟨by decide, by decide⟩, ⟨rfl, rfl⟩⟩, by decide⟩
  cases k <;> exact ⟨by decide, by decide⟩

/-! ## Witnesses: frames -/

theorem witness_OnlyDestinationChanges :
    nextWith (exec (.bempty .r1) mix) (fun _ => true) ∧
    (Instr.bempty .r1).bDest ≠ some .r0 ∧ (Instr.bempty .r1).fDest ≠ some .r1 ∧
    (Instr.bempty .r1).pDest ≠ some .r1 := by decide

theorem witness_ResFrame :
    (nextWith (exec (.bempty .r1) mix) (fun _ => true) ∧ (Instr.bempty .r1).producesRes = false) ∧
    (nextWith (exec (.accdec 0) mix) (fun t => t.st != .ok) ∧
      (Instr.accdec 0).producesRes = true) := by decide

theorem witness_SequenceFrame :
    (nextWith (exec (.bempty .r1) mix) (fun _ => true) ∧ (Instr.bempty .r1).producesSeq = false) ∧
    (nextWith (exec (.sapply .r0 244) mix) (fun t => t.st != .ok) ∧
      (Instr.sapply .r0 244).producesSeq = true) := by decide

theorem witness_FaultEntry :
    mix.st ≠ .fault ∧
    nextWith (step (mixWith [encode (.bget .r2 16)])) (fun t => t.st == .fault) := by decide

theorem witness_FaultRecordFrame :
    nextWith (exec (.accdec 0) mix) (fun t => t.st != .fault) := by decide

theorem witness_DecodeFailure :
    ∀ i ∈ [Instr.csetdeg .r0 0 9, .accdec 0, .accdec 5, .degdec 0, .degdec 17],
      nextWith (exec i mix) (fun t => t.st == .decodeFail) := by decide

theorem witness_RunningTotal :
    ∀ i ∈ [Instr.bempty .r1, .bfromraw .r1 5, .bmov .r1 .r0, .saddstep .r1 4, .bbuild .r1],
      nextWith (exec i mix) (fun t => t.st == .ok) := by decide

theorem witness_TagTransitions :
    nextWith (exec (.bempty .r0) mix)
      (fun t => (mix.b.get .r0).tag == .built && (t.b.get .r0).tag == .building) ∧
    nextWith (exec (.bbuild .r1) mix)
      (fun t => (mix.b.get .r1).tag == .building && (t.b.get .r1).tag == .built) ∧
    nextWith (exec (.cwithroot .r0 1) mix)
      (fun t => (mix.f.get .r0).tag == .built && (t.f.get .r0).tag == .building) ∧
    nextWith (exec (.fset .r1 .r0 0 0) mix)
      (fun t => (mix.f.get .r1).tag == .building && (t.f.get .r1).tag == .built) := by decide

theorem witness_FaultCauses :
    ∀ i ∈ [Instr.bget .r3 0, .bget .r2 16, .fset .r0 .r1 0 0, .bsetidx .r0 0, .bsetidx .r1 16,
        .fbset .r1 255 0, .ppack .r0 16 0, .ppack .r0 15 16, .ssetint .r0 1, .ssetint .r1 0,
        .ssetint .r1 17, .saddstep .r0 1, .saddstep .r1 5, .csetdeg .r0 1 1, .csetdeg .r1 0 1,
        .csetdeg .r1 17 1, .bbuild .r0, .fbuild .r0, .sapply .r1 0, .sapply .r0 244, .btoraw .r1,
        .cname .r1, .fget .r1 0, .fget .r2 16, .fset .r1 .r0 16 0, .fbset .r0 0 0],
      nextWith (exec i mix) (fun t => t.st == .fault) := by decide

/-! ## Witnesses: one command -/

/-- `mix` holds finished values and builders in both files: what the statements with hypotheses on tags
alone assume. -/
theorem witness_tags :
    (mix.b.get .r0).tag = .built ∧ (mix.b.get .r1).tag = .building ∧
    (mix.f.get .r0).tag = .built ∧ (mix.f.get .r1).tag = .building := by decide

theorem witness_ToRawReports :
    (mix.b.get .r0).tag = .built ∧ (mix.b.get .r1).tag = .building ∧
    (mix.f.get .r0).tag = .built ∧ (mix.f.get .r1).tag = .building := witness_tags

theorem witness_BuildFinishesOnce :
    (mix.b.get .r0).tag = .built ∧ (mix.b.get .r1).tag = .building ∧
    (mix.f.get .r0).tag = .built ∧ (mix.f.get .r1).tag = .building := witness_tags

theorem witness_MovCopies :
    (mix.b.get .r0).tag = .built ∧ (mix.b.get .r1).tag = .building ∧
    (mix.f.get .r0).tag = .built ∧ (mix.f.get .r1).tag = .building := witness_tags

theorem witness_BgetReportsBit :
    (mix.b.get .r0).tag = .built ∧ (mix.b.get .r1).tag = .building ∧
    (15 : Byte).toNat < 16 ∧ 16 ≤ (16 : Byte).toNat := by decide

theorem witness_BiterDeliversBits :
    (mix.b.get .r0).tag = .built ∧ (mix.b.get .r1).tag = .building := by decide

theorem witness_IndexListsAscending :
    (mix.b.get .r0).tag = .built ∧ (mix.b.get .r1).tag = .building := by decide

theorem witness_BsetidxSetsBit :
    (mix.b.get .r0).tag = .built ∧ (mix.b.get .r1).tag = .building ∧
    (15 : Byte).toNat < 16 ∧ 16 ≤ (16 : Byte).toNat := by decide

theorem witness_FgetReportsField :
    (mix.f.get .r0).tag = .built ∧ (mix.f.get .r1).tag = .building ∧
    (15 : Byte).toNat < 16 ∧ 16 ≤ (16 : Byte).toNat := by decide

theorem witness_FsetReplacesField :
    (mix.f.get .r0).tag = .built ∧ (mix.f.get .r1).tag = .building ∧
    (15 : Byte).toNat < 16 ∧ 16 ≤ (16 : Byte).toNat := by decide

theorem witness_FiterDeliversFields :
    (mix.f.get .r0).tag = .built ∧ (mix.f.get .r1).tag = .building := by decide

theorem witness_FbsetReplacesField :
    (mix.f.get .r0).tag = .built ∧ (mix.f.get .r1).tag = .building ∧
    (15 : Byte).toNat < 16 ∧ 16 ≤ (16 : Byte).toNat := by decide

theorem witness_PpackPacks :
    (15 : Byte).toNat < 16 ∧ 16 ≤ (16 : Byte).toNat := by decide

theorem witness_SintervalsDelivers :
    (mix.b.get .r0).tag = .built ∧ (mix.b.get .r1).tag = .building := by decide

theorem witness_SstepsDelivers :
    (mix.b.get .r0).tag = .built ∧ (mix.b.get .r1).tag = .building := by decide

/-- The largest root of TV-SC5 and the smallest overflowing one of TV-SC6. -/
theorem witness_SapplyDeliversPitches :
    (mix.b.get .r1).tag = .building ∧ (mix.b.get .r0).tag = .built ∧
    (inScale (mix.b.get .r0).raw 12 ∧ 255 < (244 : Byte).toNat + 12) ∧
    ∀ n, inScale (mix.b.get .r0).raw n → (243 : Byte).toNat + n ≤ 255 := by
  refine ⟨rfl, rfl, by decide, ?_⟩
  have h : ∀ n ≤ 16, inScale (mix.b.get .r0).raw n → (243 : Byte).toNat + n ≤ 255 := by decide
  exact fun n hn => h n hn.2.1 hn

theorem witness_SsetintAddsInterval :
    (mix.b.get .r0).tag = .built ∧ (mix.b.get .r1).tag = .building ∧
    (1 ≤ (1 : Byte).toNat ∧ (16 : Byte).toNat ≤ 16) ∧
    ¬ (1 ≤ (0 : Byte).toNat ∧ (0 : Byte).toNat ≤ 16) ∧
    ¬ (1 ≤ (17 : Byte).toNat ∧ (17 : Byte).toNat ≤ 16) := by decide

/-- Totals 16 and 17 from total 12, and 0 and 1 from total 0. -/
theorem witness_SaddstepAddsTotal :
    (mix.b.get .r0).tag = .built ∧ (mix.b.get .r1).tag = .building ∧ (mix.b.get .r3).tag = .building ∧
    16 = (mix.b.get .r1).acc.toNat + (4 : Byte).toNat ∧
    17 = (mix.b.get .r1).acc.toNat + (5 : Byte).toNat ∧
    0 = (mix.b.get .r3).acc.toNat + (0 : Byte).toNat ∧
    1 = (mix.b.get .r3).acc.toNat + (1 : Byte).toNat := by decide

theorem witness_CsetdegSetsDegree :
    (mix.f.get .r0).tag = .built ∧ (mix.f.get .r1).tag = .building ∧
    ¬ (1 ≤ (0 : Byte).toNat ∧ (0 : Byte).toNat ≤ 4) ∧ ¬ (1 ≤ (5 : Byte).toNat ∧ (5 : Byte).toNat ≤ 4) ∧
    (1 ≤ (1 : Byte).toNat ∧ (4 : Byte).toNat ≤ 4) ∧
    ¬ (1 ≤ (0 : Byte).toNat ∧ (0 : Byte).toNat ≤ 16) ∧
    ¬ (1 ≤ (17 : Byte).toNat ∧ (17 : Byte).toNat ≤ 16) ∧
    (1 ≤ (1 : Byte).toNat ∧ (16 : Byte).toNat ≤ 16) := by decide

theorem witness_CdegreesDeliversPairs :
    (mix.f.get .r0).tag = .built ∧ (mix.f.get .r1).tag = .building := by decide

theorem witness_CnameReportsHandle :
    (mix.f.get .r0).tag = .built ∧ (mix.f.get .r1).tag = .building := by decide

theorem witness_CodeDecoders :
    ¬ (1 ≤ (0 : Byte).toNat ∧ (0 : Byte).toNat ≤ 4) ∧ ¬ (1 ≤ (5 : Byte).toNat ∧ (5 : Byte).toNat ≤ 4) ∧
    (1 ≤ (1 : Byte).toNat ∧ (4 : Byte).toNat ≤ 4) ∧
    ¬ (1 ≤ (0 : Byte).toNat ∧ (0 : Byte).toNat ≤ 16) ∧
    ¬ (1 ≤ (17 : Byte).toNat ∧ (17 : Byte).toNat ≤ 16) ∧
    (1 ≤ (1 : Byte).toNat ∧ (16 : Byte).toNat ≤ 16) := by decide

/-! ## Witnesses: several commands -/

theorem witness_RawRoundTrip : mix.st ≠ .fault := by decide

theorem witness_GetAgreesWithIterate :
    (mix.b.get .r0).tag = .built ∧ (mix.f.get .r0).tag = .built ∧ ((15 : Fin 32) : Nat) < 16 ∧
    nextWith (exec (.bget .r0 (BitVec.ofNat 8 15)) mix) (fun _ => true) ∧
    nextWith (exec (.biter .r0) mix) (fun u => nextWith (exec (.biter .r0) u) fun _ => true) ∧
    nextWith (exec (.fget .r0 (BitVec.ofNat 8 15)) mix) (fun _ => true) ∧
    nextWith (exec (.fiter .r0) mix) (fun _ => true) := by decide

theorem witness_FieldIsolationAndOverwrite :
    mix.st ≠ .fault ∧ (mix.f.get .r0).tag = .built ∧ (0 : Byte).toNat < 16 ∧ (15 : Byte).toNat < 16 ∧
    (0 : Byte) ≠ 15 := by decide

theorem witness_PackInvariant :
    mix.st ≠ .fault ∧ (15 : Byte).toNat < 16 ∧ (0 : Byte).toNat < 16 := by decide

theorem witness_BoolBuilderIsDirect :
    mix.st ≠ .fault ∧ ∀ i ∈ ([15, 0, 15] : List Byte), i.toNat < 16 := by decide

theorem witness_FieldBuilderIsDirect :
    mix.st ≠ .fault ∧ ∀ p ∈ ([(0, 15), (15, 15), (0, 0x21)] : List (Byte × Byte)), p.1.toNat < 16 := by
  simp [mix, State.reset]

/-- TV-S7. -/
theorem witness_ScaleBuildersAgree :
    let ns : List Byte := [2, 4, 5, 7, 9, 11, 12]
    let ds : List Byte := [2, 2, 1, 2, 2, 2, 1]
    mix.st ≠ .fault ∧ RegNo.r0 ≠ .r1 ∧ (ns.map BitVec.toNat).Pairwise (· < ·) ∧
    (∀ n ∈ ns, 1 ≤ n.toNat ∧ n.toNat ≤ 16) ∧ ds.length = ns.length ∧
    ∀ j < ns.length, (ds.getD j 0).toNat + (if j = 0 then 0 else (ns.getD (j - 1) 0).toNat)
      = (ns.getD j 0).toNat := by decide

theorem witness_StepsAndIntervalsAgree :
    mix.st ≠ .fault ∧ (mix.b.get .r0).tag = .built ∧
    nextWith (exec (.sapply .r0 60) mix) (fun w => w.st == .ok) := by decide

theorem witness_ChordSlotsAndCodes :
    ((mix.f.get .r2).tag = .built ∧ nextWith (exec (.fiter .r2) mix) (fun _ => true) ∧
      nextWith (exec (.cdegrees .r2) mix) (fun _ => true)) ∧
    nextWith (exec (.cwithroot .r0 5) mix) (fun _ => true) ∧
    (∀ j < 16, slot (mix.f.get .r1).raw j ≤ 4) ∧
    nextWith (exec (.csetdeg .r1 16 4) mix) (fun _ => true) ∧
    slot (mix.f.get .r1).raw 0 ≠ 0 := by
  decide

/-- Another name in f0, and a copy of f0. -/
theorem witness_NamesAreOpaque :
    let other := mix.setF .r0 ⟨0xFEDCBA9876543210, .built, 8⟩
    (∀ k, Instr.fmov .r3 .r0 ≠ .cname k) ∧
    (∀ k, (mix.f.get k).raw = (other.f.get k).raw ∧ (mix.f.get k).tag = (other.f.get k).tag) ∧
    mix = { other with f := mix.f } ∧
    nextWith (exec (.fmov .r3 .r0) mix) (fun _ => true) ∧
    nextWith (exec (.fmov .r3 .r0) other) (fun _ => true) := by
  refine ⟨fun k => by simp, fun k => ?_, by decide, by decide, by decide⟩
  cases k <;> decide

/-- Another running total in b1, and its build. -/
theorem witness_TotalsAreHidden :
    let other := mix.setB .r1 ⟨0x0800, .building, 5⟩
    (∀ k d, Instr.bbuild .r1 ≠ .saddstep k d) ∧
    (∀ k, (mix.b.get k).raw = (other.b.get k).raw ∧ (mix.b.get k).tag = (other.b.get k).tag) ∧
    mix = { other with b := mix.b } ∧
    nextWith (exec (.bbuild .r1) mix) (fun _ => true) ∧
    nextWith (exec (.bbuild .r1) other) (fun _ => true) := by
  refine ⟨fun k d => by simp, fun k => ?_, by decide, by decide, by decide⟩
  cases k <;> decide

end Sys2Proof.Tests
end

section
/-!
The statements of 10_state.md: the state's invariant, what a command leaves unchanged, and what no
command depends on. Everything about commands rests on `exec_answersAlike` (how a command answers in one
state, or alike in two) and on what `written` does to each part of the state.
-/

namespace Sys2Proof.Machine

/-! ## Files of registers -/

/-- A write that keeps a part of its register keeps that part of every register. -/
theorem Quad.part_get_set {α β : Type} (part : α → β) {q : Quad α} {k : RegNo} {v : α}
    (hv : part v = part (q.get k)) (j : RegNo) : part ((q.set k v).get j) = part (q.get j) := by
  rw [Quad.get_set]
  split
  next h => rw [hv, h]
  next => rfl

/-- A file is its four registers. -/
theorem Quad.ext_get {α : Type} {q r : Quad α} (h : ∀ k, q.get k = r.get k) : q = r :=
  congr (congr (congr (congrArg Quad.mk (h .r0)) (h .r1)) (h .r2)) (h .r3)

/-- Registers written alike in two files that are alike. -/
theorem Quad.rel_get_set {α : Type} {R : α → α → Prop} {q r : Quad α} {k : RegNo} {v w : α}
    (hv : R v w) (hq : ∀ j, R (q.get j) (r.get j)) (j : RegNo) :
    R ((q.set k v).get j) ((r.set k w).get j) := by
  rw [Quad.get_set, Quad.get_set]
  split
  · exact hv
  · exact hq j

/-! ## Two states that agree -/

/-- Two b registers with the same word and tag and, if `acc` is asked for, the same running total. -/
structure BCell.Agree (acc : Prop) (c d : BCell) : Prop where
  raw : c.raw = d.raw
  tag : c.tag = d.tag
  total : acc → c.acc = d.acc

/-- Two f registers with the same word and tag and, if `name` is asked for, the same name handle. -/
structure FCell.Agree (name : Prop) (c d : FCell) : Prop where
  raw : c.raw = d.raw
  tag : c.tag = d.tag
  handle : name → c.name = d.name

theorem BCell.Agree.refl (acc : Prop) (c : BCell) : c.Agree acc c := ⟨rfl, rfl, fun _ => rfl⟩

theorem FCell.Agree.refl (name : Prop) (c : FCell) : c.Agree name c := ⟨rfl, rfl, fun _ => rfl⟩

theorem BCell.Agree.eq {c d : BCell} (h : c.Agree True d) : c = d := by
  obtain ⟨hraw, htag, hacc⟩ := h
  cases c
  simp_all

theorem FCell.Agree.eq {c d : FCell} (h : c.Agree True d) : c = d := by
  obtain ⟨hraw, htag, hname⟩ := h
  cases c
  simp_all

theorem BCell.Agree.withTag {acc : Prop} {c d : BCell} (h : c.Agree acc d) (g : Tag) :
    BCell.Agree acc { c with tag := g } { d with tag := g } :=
  { h with tag := rfl }

theorem FCell.Agree.withTag {name : Prop} {c d : FCell} (h : c.Agree name d) (g : Tag) :
    FCell.Agree name { c with tag := g } { d with tag := g } :=
  { h with tag := rfl }

/-- Two states that agree in everything, but in the running totals only if `acc` holds and in the name
handles only if `name` holds. -/
structure Agree (acc name : Prop) (s s' : State) : Prop where
  b : ∀ k, (s.b.get k).Agree acc (s'.b.get k)
  f : ∀ k, (s.f.get k).Agree name (s'.f.get k)
  p : s.p = s'.p
  res : s.res = s'.res
  st : s.st = s'.st
  fcause : s.fcause = s'.fcause
  finfo : s.finfo = s'.finfo
  seq : s.seq = s'.seq
  slen : s.slen = s'.slen
  host : s.host = s'.host

namespace Agree

variable {acc name : Prop} {s s' : State}

theorem refl (s : State) : Agree acc name s s :=
  ⟨fun _ => .refl .., fun _ => .refl .., rfl, rfl, rfl, rfl, rfl, rfl, rfl, rfl⟩

theorem of_b {q : Quad BCell} (hq : ∀ k, (q.get k).Agree acc (s.b.get k)) :
    Agree acc name { s with b := q } s :=
  { refl (acc := acc) s with b := hq }

theorem of_f {q : Quad FCell} (hq : ∀ k, (q.get k).Agree name (s.f.get k)) :
    Agree acc name { s with f := q } s :=
  { refl (name := name) s with f := hq }

/-- States that agree, totals included, differ in the f registers at most. -/
theorem eq_but_f (h : Agree True name s s') : s = { s' with f := s.f } := by
  obtain ⟨hb, -, hp, hres, hst, hcause, hinfo, hseq, hslen, hhost⟩ := h
  have hb : s.b = s'.b := Quad.ext_get fun k => (hb k).eq
  cases s
  simp_all

/-- States that agree, names included, differ in the b registers at most. -/
theorem eq_but_b (h : Agree acc True s s') : s = { s' with b := s.b } := by
  obtain ⟨-, hf, hp, hres, hst, hcause, hinfo, hseq, hslen, hhost⟩ := h
  have hf : s.f = s'.f := Quad.ext_get fun k => (hf k).eq
  cases s
  simp_all

variable (h : Agree acc name s s')
include h

theorem bRaw (k : RegNo) : (s.b.get k).raw = (s'.b.get k).raw := (h.b k).raw

theorem bTag (k : RegNo) : (s.b.get k).tag = (s'.b.get k).tag := (h.b k).tag

theorem bAcc (ha : acc) (k : RegNo) : (s.b.get k).acc = (s'.b.get k).acc := (h.b k).total ha

theorem fRaw (k : RegNo) : (s.f.get k).raw = (s'.f.get k).raw := (h.f k).raw

theorem fTag (k : RegNo) : (s.f.get k).tag = (s'.f.get k).tag := (h.f k).tag

theorem fName (hn : name) (k : RegNo) : (s.f.get k).name = (s'.f.get k).name := (h.f k).handle hn

theorem setB (k : RegNo) {v w : BCell} (hv : v.Agree acc w) :
    Agree acc name (s.setB k v) (s'.setB k w) :=
  { h with b := Quad.rel_get_set hv h.b }

theorem setF (k : RegNo) {v w : FCell} (hv : v.Agree name w) :
    Agree acc name (s.setF k v) (s'.setF k w) :=
  { h with f := Quad.rel_get_set hv h.f }

theorem setP (k : RegNo) {v w : Byte} (hv : v = w) : Agree acc name (s.setP k v) (s'.setP k w) :=
  { h with p := by rw [State.setP_p, State.setP_p, h.p, hv] }

theorem setRes {v w : BitVec 64} (hv : v = w) : Agree acc name (s.setRes v) (s'.setRes w) :=
  { h with res := hv }

theorem setSeq {l m : List Byte} (hl : l = m) : Agree acc name (s.setSeq l) (s'.setSeq m) :=
  { h with seq := congrArg seqBuffer hl, slen := by rw [State.setSeq_slen, State.setSeq_slen, hl] }

theorem setSt (v : Status) : Agree acc name (s.setSt v) (s'.setSt v) := { h with st := rfl }

theorem enterFault (c : Cause) (v : Byte) : Agree acc name (s.enterFault c v) (s'.enterFault c v) :=
  { h with st := rfl, fcause := rfl, finfo := rfl }

/-- What the host reads is no running total and no name handle (R199). -/
theorem hostView_eq : s.hostView = s'.hostView := by
  simp only [State.hostView, State.faultO, State.halted, h.res, h.st, h.fcause, h.finfo, h.seq, h.slen]

end Agree

/-! ## How a command answers -/

/-- R171: the values a fault of this cause can report. -/
def Cause.Reports : Cause → Byte → Prop
  | .illegalCommand, _ => True
  | .indexRange, v => 16 ≤ v.toNat
  | .operandRange, v => 16 ≤ v.toNat
  | .intervalRange, _ => True
  | .degreeRange, v => v.toNat < 1 ∨ 16 < v.toNat
  | .builderState, v => v.toNat < 4
  | .pitchOverflow, v => 240 ≤ v.toNat

theorem reports_registerNumber (k : RegNo) : Cause.builderState.Reports (registerNumber k) := by
  rw [Cause.Reports, registerNumber_toNat]
  exact k.num_lt

theorem reports_of_not_degreeOk {a : Byte} (h : degreeOk a = false) : Cause.degreeRange.Reports a := by
  rw [not_degreeOk] at h
  rw [Cause.Reports]
  omega

theorem reports_of_not_pitchesFit {a : Byte} {w : Raw16} (h : pitchesFit a.toNat w = false) :
    Cause.pitchOverflow.Reports a := by
  obtain ⟨n, ⟨-, hn, -⟩, hsum⟩ := (not_pitchesFit _ _).mp h
  rw [Cause.Reports]
  omega

/-- The two answers are of one kind: both complete (in `w` and `w'`), both fault with one cause and a value
that cause can report, or both fail decode; `s` and `s'` are the states before. -/
inductive AnswersAlike (s s' w w' : State) : Result → Result → Prop
  | completes : AnswersAlike s s' w w' (complete w) (complete w')
  | faults {c : Cause} {v : Byte} (hv : c.Reports v) :
      AnswersAlike s s' w w' (raiseFault c v s) (raiseFault c v s')
  | failsDecode : AnswersAlike s s' w w' (failDecode s) (failDecode s')

namespace AnswersAlike

variable {s s' w w' : State} {r r' : Result} {t t' : Tag} {ok ok' : Bool}

/-- The check `require_built`, of registers with one tag. -/
theorem requireBuilt {k : RegNo} (ht : t = t') (h : AnswersAlike s s' w w' r r') :
    AnswersAlike s s' w w' (requireBuilt t k s r) (requireBuilt t' k s' r') := by
  subst ht
  cases t with
  | built => exact h
  | building => exact .faults (reports_registerNumber k)

/-- The check `require_building`, of registers with one tag. -/
theorem requireBuilding {k : RegNo} (ht : t = t') (h : AnswersAlike s s' w w' r r') :
    AnswersAlike s s' w w' (requireBuilding t k s r) (requireBuilding t' k s' r') := by
  subst ht
  cases t with
  | built => exact .faults (reports_registerNumber k)
  | building => exact h

/-- A check of one condition, whose value can be reported when it fails. -/
theorem requireElseFault {c : Cause} {v : Byte} (hok : ok = ok') (hv : ok = false → c.Reports v)
    (h : AnswersAlike s s' w w' r r') :
    AnswersAlike s s' w w' (requireElseFault ok c v s r) (requireElseFault ok' c v s' r') := by
  subst hok
  cases ok with
  | true => exact h
  | false => exact .faults (hv rfl)

/-- A decode check of one condition. -/
theorem requireElseDecodeFail (h : AnswersAlike s s' w w' r r') :
    AnswersAlike s s' w w' (requireElseDecodeFail ok s r) (requireElseDecodeFail ok s' r') := by
  cases ok with
  | true => exact h
  | false => exact .failsDecode

end AnswersAlike

/-- A command answers alike in two states that agree, names apart, and totals apart unless it is SADDSTEP:
no check of R177 reads a name, and only that of SADDSTEP reads a total. -/
theorem exec_answersAlike {acc name : Prop} {s s' : State} (h : Agree acc name s s') (i : Instr)
    (ha : ∀ k d, i = .saddstep k d → acc) :
    AnswersAlike s s' (written s i) (written s' i) (exec i s) (exec i s') := by
  cases i with
  | bfromraw | bempty | ffromraw | fempty | pfirst | psecond | ptoraw | pmov | cwithroot =>
    exact .completes
  | btoraw rs | biter rs | bidxt rs | bidxf rs | bmov _ rs | sintervals rs | ssteps rs =>
    exact .requireBuilt (h.bTag rs) .completes
  | ftoraw rs | fiter rs | fmov _ rs | cdegrees rs | cname rs =>
    exact .requireBuilt (h.fTag rs) .completes
  | bbuild rd => exact .requireBuilding (h.bTag rd) .completes
  | fbuild rd => exact .requireBuilding (h.fTag rd) .completes
  | bget rs a =>
    exact .requireBuilt (h.bTag rs) (.requireElseFault rfl (not_indexOk a).mp .completes)
  | fget rs a | fset _ rs a =>
    exact .requireBuilt (h.fTag rs) (.requireElseFault rfl (not_indexOk a).mp .completes)
  | bsetidx rd a =>
    exact .requireBuilding (h.bTag rd) (.requireElseFault rfl (not_indexOk a).mp .completes)
  | fbset rd a =>
    exact .requireBuilding (h.fTag rd) (.requireElseFault rfl (not_indexOk a).mp .completes)
  | ppack _ a b =>
    exact .requireElseFault rfl (not_nibbleOk a).mp
      (.requireElseFault rfl (not_nibbleOk b).mp .completes)
  | sapply rs a =>
    exact .requireBuilt (h.bTag rs)
      (.requireElseFault (by rw [h.bRaw]) reports_of_not_pitchesFit .completes)
  | ssetint rd a =>
    exact .requireBuilding (h.bTag rd) (.requireElseFault rfl (fun _ => trivial) .completes)
  | saddstep rd d =>
    exact .requireBuilding (h.bTag rd)
      (.requireElseFault (by rw [h.bAcc (ha rd d rfl)]) (fun _ => trivial) .completes)
  | csetdeg rd a =>
    exact .requireElseDecodeFail
      (.requireBuilding (h.fTag rd) (.requireElseFault rfl reports_of_not_degreeOk .completes))
  | accdec | degdec => exact .requireElseDecodeFail .completes

theorem exec_answersAlike_self (i : Instr) (s : State) :
    AnswersAlike s s (written s i) (written s i) (exec i s) (exec i s) :=
  exec_answersAlike (Agree.refl (acc := True) (name := True) s) i fun _ _ _ => trivial

/-- A command that has completed was ready and has made its writes. -/
theorem exec_completed {i : Instr} {s t : State} (h : exec i s = .next t) (ht : t.st = .ok) :
    ready s i = true ∧ t = (written s i).setSt .ok := by
  obtain hc | ⟨-, ⟨c, v, rfl⟩ | rfl⟩ := exec_next h
  · exact hc
  · cases ht
  · cases ht

/-- R73: a command answers a next state. -/
theorem exec_answers (i : Instr) (s : State) : ∃ t, exec i s = .next t := by
  have hx := exec_answersAlike_self i s
  generalize exec i s = r at hx
  cases hx <;> exact ⟨_, rfl⟩

/-- R73: a command completes, faults with a value its cause can report, or fails decode. -/
theorem exec_outcome {i : Instr} {s t : State} (h : exec i s = .next t) :
    (ready s i = true ∧ t = (written s i).setSt .ok) ∨
      (∃ c v, c.Reports v ∧ t = s.enterFault c v) ∨ t = s.setSt .decodeFail := by
  have hx := exec_answersAlike_self i s
  rw [h] at hx
  cases hx with
  | completes => exact .inl (exec_completed h rfl)
  | faults hv => exact .inr (.inl ⟨_, _, hv, rfl⟩)
  | failsDecode => exact .inr (.inr rfl)

/-! ## Reset (R42) -/

theorem reset_atReset : AtReset State.reset :=
  ⟨fun k => Quad.get_all _ k, fun k => Quad.get_all _ k, fun k => Quad.get_all _ k, rfl, rfl, rfl, rfl,
    by decide, rfl⟩

theorem applyReset_atReset (s : State) : AtReset (applyReset s) := reset_atReset

/-- Settles O11: `AtReset` of the state `applyReset` gives, reached through the step's rule for an event. -/
theorem resetValues : Obligations.ResetValues := by
  unfold Obligations.ResetValues
  exact ⟨reset_atReset, fun s rest hs => ⟨_, step_cons hs, applyReset_atReset _, rfl⟩⟩

/-! ## The step is total (R35) -/

/-- R73: a halted unit ignores a command; otherwise it faults ILLEGAL_COMMAND or a command is executed. -/
theorem present_outcome (c : Command) (s : State) :
    (s.st = .fault ∧ present c s = .next s) ∨
      (s.st ≠ .fault ∧ present c s = .next (s.enterFault .illegalCommand c.op)) ∨
      (s.st ≠ .fault ∧ ∃ i, present c s = exec i s) := by
  by_cases hs : s.st = .fault
  · exact .inl ⟨hs, present_halted c hs⟩
  · cases hd : decode c with
    | ok i => exact .inr (.inr ⟨hs, i, present_ok hs hd⟩)
    | error e => exact .inr (.inl ⟨hs, present_error hs hd⟩)

theorem runEvent_answers (e : HostEvent) (s : State) :
    ∃ t, runEvent e s = .next t ∧ t.host = s.host := by
  cases e with
  | reset => exact ⟨_, rfl, rfl⟩
  | present c =>
    obtain ⟨-, h⟩ | ⟨-, h⟩ | ⟨-, i, h⟩ := present_outcome c s
    · exact ⟨_, h, rfl⟩
    · exact ⟨_, h, rfl⟩
    · obtain ⟨t, ht⟩ := exec_answers i s
      exact ⟨t, h.trans ht, exec_host ht⟩

/-- Settles O12, by cases on the host's list. -/
theorem everyStepAnswersNext : Obligations.EveryStepAnswersNext := by
  unfold Obligations.EveryStepAnswersNext
  intro s
  cases hs : s.host with
  | nil => exact ⟨s, step_nil hs, hs, fun _ => rfl⟩
  | cons e rest =>
    obtain ⟨t, ht, hhost⟩ := runEvent_answers e { s with host := rest }
    exact ⟨t, (step_cons hs).trans ht, hhost, nofun⟩

/-! ## What the writes of a command leave unchanged -/

section Frame

variable {s : State} {i : Instr} {k : RegNo}

theorem written_b_other (h : i.bDest ≠ some k) : (written s i).b.get k = s.b.get k := by
  cases i with
  | bfromraw | bempty | bsetidx | bbuild | bmov | ssetint | saddstep =>
    exact Quad.get_set_other _ _ fun e => h (congrArg some e)
  | _ => rfl

theorem written_f_other (h : i.fDest ≠ some k) : (written s i).f.get k = s.f.get k := by
  cases i with
  | ffromraw | fset | fempty | fbset | fbuild | fmov | cwithroot | csetdeg =>
    exact Quad.get_set_other _ _ fun e => h (congrArg some e)
  | _ => rfl

theorem written_p_other (h : i.pDest ≠ some k) : (written s i).p.get k = s.p.get k := by
  cases i with
  | ppack | pmov => exact Quad.get_set_other _ _ fun e => h (congrArg some e)
  | _ => rfl

theorem written_res (h : i.producesRes = false) : (written s i).res = s.res := by
  cases i with
  | btoraw | bget | bbuild | ftoraw | fget | fbuild | pfirst | psecond | ptoraw | cname | accdec
  | degdec => cases h
  | _ => rfl

theorem written_seq (h : i.producesSeq = false) :
    (written s i).seq = s.seq ∧ (written s i).slen = s.slen := by
  cases i with
  | biter | bidxt | bidxf | fiter | sintervals | ssteps | sapply | cdegrees => cases h
  | _ => exact ⟨rfl, rfl⟩

theorem written_faultRecord (s : State) (i : Instr) :
    (written s i).fcause = s.fcause ∧ (written s i).finfo = s.finfo := by
  cases i <;> exact ⟨rfl, rfl⟩

end Frame

/-- Settles O16: a fault or a decode failure writes no register, and a completed command none but its
destination. -/
theorem onlyDestinationChanges : Obligations.OnlyDestinationChanges := by
  unfold Obligations.OnlyDestinationChanges
  intro i s t h k
  obtain ⟨-, rfl⟩ | ⟨-, ⟨c, v, rfl⟩ | rfl⟩ := exec_next h
  · exact ⟨written_b_other, written_f_other, written_p_other⟩
  · exact ⟨fun _ => rfl, fun _ => rfl, fun _ => rfl⟩
  · exact ⟨fun _ => rfl, fun _ => rfl, fun _ => rfl⟩

/-- Settles O17, by the outcomes of a command. -/
theorem resFrame : Obligations.ResFrame := by
  unfold Obligations.ResFrame
  intro i s t h hframe
  obtain ⟨-, rfl⟩ | ⟨-, ⟨c, v, rfl⟩ | rfl⟩ := exec_next h
  · exact written_res (hframe.resolve_right fun hst => hst rfl)
  · rfl
  · rfl

/-- Settles O18, by the outcomes of a command. -/
theorem sequenceFrame : Obligations.SequenceFrame := by
  unfold Obligations.SequenceFrame
  intro i s t h hframe
  obtain ⟨-, rfl⟩ | ⟨-, ⟨c, v, rfl⟩ | rfl⟩ := exec_next h
  · exact written_seq (hframe.resolve_right fun hst => hst rfl)
  · exact ⟨rfl, rfl⟩
  · exact ⟨rfl, rfl⟩

/-- Settles O20, by the outcomes of a command. -/
theorem faultRecordFrame : Obligations.FaultRecordFrame := by
  unfold Obligations.FaultRecordFrame
  intro i s t h hst
  obtain ⟨-, rfl⟩ | ⟨-, ⟨c, v, rfl⟩ | rfl⟩ := exec_next h
  · exact written_faultRecord s i
  · exact absurd rfl hst
  · exact ⟨rfl, rfl⟩

/-! ## The invariant -/

/-- R36: while the unit is not halted, the fault record is 0. -/
theorem faultRecordOk_iff_of_not_fault {s : State} (hs : s.st ≠ .fault) :
    FaultRecordOk s ↔ s.fcause = 0 ∧ s.finfo = 0 := by
  unfold FaultRecordOk
  split
  · rfl
  · rfl
  · contradiction

theorem faultRecordOk_enterFault (s : State) {c : Cause} {v : Byte} (h : c.Reports v) :
    FaultRecordOk (s.enterFault c v) := by
  cases c <;> exact h

theorem accOk_of_acc_zero (w : Raw16) (t : Tag) : AccOk ⟨w, t, 0⟩ := by
  simp [AccOk]

/-- Setting a position keeps those that are set. -/
theorem AccOk.withBit {c : BCell} (h : AccOk c) {n : Nat} (hn : n < 16) :
    AccOk { c with raw := withBit c.raw n } :=
  ⟨h.1, fun hacc => (isSet_withBit _ hn _).mpr (.inl (h.2 hacc))⟩

/-- R134: a new total that is an interval is recorded exactly and its interval accumulated. -/
theorem accOk_step (w : Raw16) (t : Tag) {n : Nat} (hn : 1 ≤ n ∧ n ≤ 16) :
    AccOk ⟨Machine.withBit w (n - 1), t, BitVec.ofNat 5 n⟩ := by
  have hval : (BitVec.ofNat 5 n).toNat = n := by
    rw [BitVec.toNat_ofNat]
    omega
  rw [AccOk, hval]
  exact ⟨hn.2, fun _ => (isSet_withBit _ (by omega) _).mpr (.inr rfl)⟩

theorem SeqOk.of_delivers {s : State} {l : List Nat} (h : Delivers s l) (hl : l.length ≤ 32) :
    SeqOk s := by
  obtain ⟨hlen, hseq⟩ := h
  refine ⟨by omega, fun j hj => ?_⟩
  rw [← BitVec.toNat_inj, hseq j, List.getD_eq_default _ _ (by omega)]
  rfl

theorem seqOk_setSeq (s : State) {l : List Byte} (hl : l.length ≤ 32) : SeqOk (s.setSeq l) :=
  .of_delivers (setSeq_delivers_bytes s l hl) (by rwa [List.length_map])

theorem stepsOf_length_le (w : Raw16) : (stepsOf w).length ≤ 16 := by
  rw [stepsOf, differences_length]
  exact ivals_length_le w

theorem pitches_length_le (root : Nat) (w : Raw16) : (pitches root w).length ≤ 17 := by
  rw [pitches, List.length_cons, List.length_map]
  exact Nat.succ_le_succ (ivals_length_le w)

theorem degreePairs_length_le (w : Raw64) : (degreePairs w).length ≤ 32 := by
  have hlen := pairsOf_length_le w
  rw [degreePairs_eq, List.length_map, List.length_flatMap]
  simp only [List.length_cons, List.length_nil, List.map_const', List.sum_replicate, smul_eq_mul]
  omega

theorem seqOk_setSeq_map_byte (s : State) {l : List Nat} (hl : l.length ≤ 32) :
    SeqOk (s.setSeq (l.map byte)) :=
  seqOk_setSeq s (by rwa [List.length_map])

/-- R37: every sequence a command writes has at most 32 entries. -/
theorem written_seqOk {s : State} (h : SeqOk s) (i : Instr) : SeqOk (written s i) := by
  cases i with
  | biter => exact seqOk_setSeq s (by simp)
  | fiter => exact seqOk_setSeq s (by simp)
  | cdegrees => exact seqOk_setSeq s (degreePairs_length_le _)
  | bidxt => exact seqOk_setSeq_map_byte s ((setPositions_length_le _).trans (by decide))
  | bidxf => exact seqOk_setSeq_map_byte s ((clearPositions_length_le _).trans (by decide))
  | sintervals => exact seqOk_setSeq_map_byte s ((ivals_length_le _).trans (by decide))
  | ssteps => exact seqOk_setSeq_map_byte s ((stepsOf_length_le _).trans (by decide))
  | sapply => exact seqOk_setSeq_map_byte s ((pitches_length_le _ _).trans (by decide))
  | _ => exact h

/-- R32, R134: the checks of the scale builders keep every running total an accumulated interval. -/
theorem written_accOk {s : State} {i : Instr} (hr : ready s i = true) (h : ∀ k, AccOk (s.b.get k)) :
    ∀ k, AccOk ((written s i).b.get k) := by
  cases i with
  | bfromraw | bempty | bmov => exact Quad.forall_get_set (accOk_of_acc_zero _ _) h
  | bbuild rd => exact Quad.forall_get_set (h rd) h
  | bsetidx rd a =>
    obtain ⟨-, ha⟩ := (Bool.and_eq_true _ _).mp hr
    exact Quad.forall_get_set ((h rd).withBit ((indexOk_iff a).mp ha)) h
  | ssetint rd a =>
    obtain ⟨-, ha⟩ := (Bool.and_eq_true _ _).mp hr
    have hn := (intervalOk_iff _).mp ha
    exact Quad.forall_get_set ((h rd).withBit (by omega)) h
  | saddstep rd d =>
    obtain ⟨-, ha⟩ := (Bool.and_eq_true _ _).mp hr
    exact Quad.forall_get_set (accOk_step _ _ ((intervalOk_iff _).mp ha)) h
  | _ => exact h

/-- A command executed in a unit that is not halted keeps the invariant. -/
theorem exec_inv {i : Instr} {s t : State} (hs : s.st ≠ .fault) (hi : Inv s)
    (h : exec i s = .next t) : Inv t := by
  obtain ⟨hacc, hseq, hrec⟩ := hi
  obtain ⟨hcause, hinfo⟩ := (faultRecordOk_iff_of_not_fault hs).mp hrec
  obtain ⟨hr, rfl⟩ | ⟨c, v, hv, rfl⟩ | rfl := exec_outcome h
  · obtain ⟨hc, hv⟩ := written_faultRecord s i
    exact ⟨written_accOk hr hacc, written_seqOk hseq i, hc.trans hcause, hv.trans hinfo⟩
  · exact ⟨hacc, hseq, faultRecordOk_enterFault s hv⟩
  · exact ⟨hacc, hseq, hcause, hinfo⟩

theorem inv_of_atReset {s : State} (h : AtReset s) : Inv s := by
  obtain ⟨hb, -, -, -, hst, hcause, hinfo, hseq, hslen⟩ := h
  have hnf : s.st ≠ .fault := by rw [hst]; nofun
  refine ⟨fun k => ?_, ⟨?_, fun j _ => hseq j⟩,
    (faultRecordOk_iff_of_not_fault hnf).mpr ⟨hcause, hinfo⟩⟩
  · rw [hb k]
    exact accOk_of_acc_zero _ _
  · simp [hslen]

/-- Whatever the host does to the unit keeps the invariant. -/
theorem runEvent_inv {e : HostEvent} {s t : State} (hi : Inv s) (h : runEvent e s = .next t) : Inv t := by
  cases e with
  | reset =>
    obtain rfl := Host_next_inj.mp h
    exact inv_of_atReset (applyReset_atReset s)
  | present c =>
    obtain ⟨-, hp⟩ | ⟨-, hp⟩ | ⟨hs, i, hp⟩ := present_outcome c s
    · obtain rfl := Host_next_inj.mp (hp.symm.trans h)
      exact hi
    · obtain rfl := Host_next_inj.mp (hp.symm.trans h)
      obtain ⟨hacc, hseq, -⟩ := hi
      exact ⟨hacc, hseq, faultRecordOk_enterFault s (c := .illegalCommand) trivial⟩
    · exact exec_inv hs hi (hp.symm.trans h)

/-- Settles O14: the table of R42 meets every part of the invariant. -/
theorem resetMeetsInvariant : Obligations.ResetMeetsInvariant := by
  unfold Obligations.ResetMeetsInvariant
  exact inv_of_atReset reset_atReset

/-- Settles O13, by cases on the host's list; the invariant does not speak of that list. -/
theorem stepKeepsInvariant : Obligations.StepKeepsInvariant := by
  unfold Obligations.StepKeepsInvariant
  intro s t hi h
  cases hs : s.host with
  | nil =>
    obtain rfl := Host_next_inj.mp ((step_nil hs).symm.trans h)
    exact hi
  | cons e rest => exact runEvent_inv (s := { s with host := rest }) hi ((step_cons hs).symm.trans h)

/-! ## Running totals (R32) -/

/-- Settles O22: the commands that write a running total are BFROMRAW, BEMPTY, BMOV and SADDSTEP, and the
check of SADDSTEP keeps the sum within five bits. -/
theorem runningTotal : Obligations.RunningTotal := by
  unfold Obligations.RunningTotal
  intro i s t k h hst
  obtain ⟨hr, rfl⟩ := exec_completed h hst
  cases i with
  | bfromraw rd | bempty rd | bmov rd =>
    by_cases hk : rd = k
    · simp [written, hk]
    · simp [written, Quad.get_set, hk, Ne.symm hk]
  | saddstep rd d =>
    obtain ⟨-, ha⟩ := (Bool.and_eq_true _ _).mp hr
    have hsum := (intervalOk_iff _).mp ha
    by_cases hk : rd = k
    · subst hk
      simp only [written, State.setSt_b, State.setB_b, Quad.get_set_same, BitVec.toNat_ofNat, if_true]
      omega
    · simp [written, Quad.get_set, hk, Ne.symm hk]
  | bsetidx rd | bbuild rd | ssetint rd =>
    exact Quad.part_get_set (k := rd) BCell.acc (by rfl) k
  | _ => rfl

/-! ## Builder states (R31) -/

section Tags

variable {s : State} {i : Instr} {k : RegNo}

/-- A b register whose tag a completed command changes is its destination. -/
theorem bDest_of_tag_ne (h : ((written s i).b.get k).tag ≠ (s.b.get k).tag) : i.bDest = some k :=
  Decidable.of_not_not fun hd => h (by rw [written_b_other hd])

/-- An f register whose tag a completed command changes is its destination. -/
theorem fDest_of_tag_ne (h : ((written s i).f.get k).tag ≠ (s.f.get k).tag) : i.fDest = some k :=
  Decidable.of_not_not fun hd => h (by rw [written_f_other hd])

theorem written_b_starts (hs : (s.b.get k).tag = .built) (ht : ((written s i).b.get k).tag = .building) :
    i = .bempty k ∧ ((written s i).b.get k).raw = 0 := by
  have hd : i.bDest = some k := bDest_of_tag_ne (by rw [hs, ht]; nofun)
  cases i with
  | bempty => obtain rfl := Option.some.inj hd; simp [written]
  | bfromraw | bsetidx | bbuild | bmov | ssetint | saddstep =>
    obtain rfl := Option.some.inj hd
    simp [written, hs] at ht
  | _ => cases hd

theorem written_b_stops (hs : (s.b.get k).tag = .building) (ht : ((written s i).b.get k).tag = .built) :
    i = .bbuild k ∨ (∃ v, i = .bfromraw k v) ∨ ∃ rs, i = .bmov k rs := by
  have hd : i.bDest = some k := bDest_of_tag_ne (by rw [hs, ht]; nofun)
  cases i with
  | bbuild | bfromraw | bmov => obtain rfl := Option.some.inj hd; simp
  | bempty | bsetidx | ssetint | saddstep =>
    obtain rfl := Option.some.inj hd
    simp [written, hs] at ht
  | _ => cases hd

theorem written_f_starts (hs : (s.f.get k).tag = .built) (ht : ((written s i).f.get k).tag = .building) :
    (i = .fempty k ∧ ((written s i).f.get k).raw = 0) ∨
      ∃ n, i = .cwithroot k n ∧ ((written s i).f.get k).raw = 1 := by
  have hd : i.fDest = some k := fDest_of_tag_ne (by rw [hs, ht]; nofun)
  cases i with
  | fempty | cwithroot => obtain rfl := Option.some.inj hd; simp [written]
  | ffromraw | fset | fbset | fbuild | fmov | csetdeg =>
    obtain rfl := Option.some.inj hd
    simp [written, hs] at ht
  | _ => cases hd

theorem written_f_stops (hs : (s.f.get k).tag = .building) (ht : ((written s i).f.get k).tag = .built) :
    i = .fbuild k ∨ (∃ v, i = .ffromraw k v) ∨ (∃ rs, i = .fmov k rs) ∨ ∃ rs a v, i = .fset k rs a v := by
  have hd : i.fDest = some k := fDest_of_tag_ne (by rw [hs, ht]; nofun)
  cases i with
  | fbuild | ffromraw | fmov | fset => obtain rfl := Option.some.inj hd; simp
  | fempty | cwithroot | fbset | csetdeg =>
    obtain rfl := Option.some.inj hd
    simp [written, hs] at ht
  | _ => cases hd

end Tags

/-- A tag does not have both values. -/
theorem Tag.absurd_both {g : Tag} {P : Prop} (h : g = .built) (h' : g = .building) : P :=
  nomatch h.symm.trans h'

/-- Settles O23: only a completed command writes a tag, and only its destination's. -/
theorem tagTransitions : Obligations.TagTransitions := by
  unfold Obligations.TagTransitions
  intro i s t k h
  obtain ⟨-, rfl⟩ | ⟨-, ⟨c, v, rfl⟩ | rfl⟩ := exec_next h
  · exact ⟨written_b_starts, written_b_stops, written_f_starts, written_f_stops⟩
  · exact ⟨Tag.absurd_both, flip Tag.absurd_both, Tag.absurd_both, flip Tag.absurd_both⟩
  · exact ⟨Tag.absurd_both, flip Tag.absurd_both, Tag.absurd_both, flip Tag.absurd_both⟩

/-! ## What no command depends on -/

/-- The writes of a command are alike in two states that agree, names apart unless it is CNAME, and totals
apart unless it is SADDSTEP. -/
theorem written_agree {acc name : Prop} {s s' : State} (h : Agree acc name s s') (i : Instr)
    (ha : ∀ k d, i = .saddstep k d → acc) (hn : ∀ k, i = .cname k → name) :
    Agree acc name (written s i) (written s' i) := by
  cases i with
  | bfromraw rd | bempty rd => exact h.setB rd (.refl ..)
  | bmov rd rs => exact h.setB rd ⟨h.bRaw rs, rfl, fun _ => rfl⟩
  | bsetidx rd | ssetint rd =>
    exact h.setB rd ⟨congrArg (withBit · _) (h.bRaw rd), h.bTag rd, (h.bAcc · rd)⟩
  | saddstep rd d =>
    have hacc := h.bAcc (ha rd d rfl) rd
    exact h.setB rd ⟨by simp only [h.bRaw, hacc], h.bTag rd, fun _ => by simp only [hacc]⟩
  | bbuild rd => exact (h.setB rd ((h.b rd).withTag .built)).setRes (by rw [h.bRaw])
  | ffromraw rd | fempty rd | cwithroot rd => exact h.setF rd (.refl ..)
  | fset rd rs => exact h.setF rd ⟨congrArg (setfield · _ _) (h.fRaw rs), rfl, (h.fName · rs)⟩
  | fmov rd rs => exact h.setF rd ⟨h.fRaw rs, rfl, (h.fName · rs)⟩
  | fbset rd | csetdeg rd =>
    exact h.setF rd ⟨congrArg (setfield · _ _) (h.fRaw rd), h.fTag rd, (h.fName · rd)⟩
  | fbuild rd => exact (h.setF rd ((h.f rd).withTag .built)).setRes (h.fRaw rd)
  | ppack rd => exact h.setP rd rfl
  | pmov rd => exact h.setP rd (by rw [h.p])
  | btoraw | bget => exact h.setRes (by rw [h.bRaw])
  | ftoraw | fget => exact h.setRes (by rw [h.fRaw])
  | pfirst | psecond | ptoraw => exact h.setRes (by rw [h.p])
  | cname rs => exact h.setRes (by rw [h.fName (hn rs rfl)])
  | accdec | degdec => exact h.setRes rfl
  | biter | bidxt | bidxf | sintervals | ssteps | sapply => exact h.setSeq (by rw [h.bRaw])
  | fiter | cdegrees => exact h.setSeq (by rw [h.fRaw])

/-- Two states that agree still agree after a command, names apart unless it is CNAME, and totals apart
unless it is SADDSTEP. -/
theorem exec_agree {acc name : Prop} {s s' t t' : State} {i : Instr} (h : Agree acc name s s')
    (ha : ∀ k d, i = .saddstep k d → acc) (hn : ∀ k, i = .cname k → name)
    (ht : exec i s = .next t) (ht' : exec i s' = .next t') : Agree acc name t t' := by
  have hw := written_agree h i ha hn
  have hx := exec_answersAlike h i ha
  rw [ht, ht'] at hx
  cases hx with
  | completes => exact hw.setSt .ok
  | faults => exact h.enterFault _ _
  | failsDecode => exact h.setSt .decodeFail

/-- Settles O59: states that differ in names alone agree up to names, before a command and after. -/
theorem namesAreOpaque : Obligations.NamesAreOpaque := by
  unfold Obligations.NamesAreOpaque
  intro i s s' t t' hi hf hs ht ht'
  have h : Agree True False s s' := by
    rw [hs]
    exact .of_f fun k => ⟨(hf k).1, (hf k).2, False.elim⟩
  have hpost := exec_agree h (fun _ _ _ => trivial) hi ht ht'
  exact ⟨hpost.eq_but_f, fun k => ⟨hpost.fRaw k, hpost.fTag k⟩⟩

/-- Settles O60: states that differ in totals alone agree up to totals, before a command and after. -/
theorem totalsAreHidden : Obligations.TotalsAreHidden := by
  unfold Obligations.TotalsAreHidden
  intro i s s' t t' hi hb hs ht ht'
  have h : Agree False True s s' := by
    rw [hs]
    exact .of_b fun k => ⟨(hb k).1, (hb k).2, False.elim⟩
  have hpost := exec_agree h hi (fun _ _ => trivial) ht ht'
  exact ⟨hpost.hostView_eq, hpost.eq_but_b, fun k => ⟨hpost.bRaw k, hpost.bTag k⟩⟩

end Sys2Proof.Machine
end

section
/-!
The statements of 30_encoding.md: the decoder and the encoder are inverse, the opcode table says which
words are commands, the assembler makes only such words, and a step runs what the decoder reads.
Everything about decoding rests on `decodeFields_row` (what a word with a row's opcode decodes to) and on
`decodeFields_reserved` (a word with no row's opcode).
-/

namespace Sys2Proof

/-! ## Decode after encode -/

@[simp] theorem Fields.dst_bits (op : BitVec 8) (k : RegNo) (rs : BitVec 2) (z : BitVec 4) (a b8 : Byte) :
    Fields.dst ⟨op, k.bits, rs, z, a, b8⟩ = k :=
  RegNo.ofBits_bits k

@[simp] theorem Fields.src_bits (op : BitVec 8) (rd : BitVec 2) (k : RegNo) (z : BitVec 4) (a b8 : Byte) :
    Fields.src ⟨op, rd, k.bits, z, a, b8⟩ = k :=
  RegNo.ofBits_bits k

/-- A word whose fixed bits are zero is accepted. -/
theorem accept_of_fixedZero {fmt : Format} {f : Fields} {i : Instr} (hz : fmt.fixedZero f = true) :
    accept fmt f i = .ok i :=
  if_pos hz

/-- An assembled command decodes to the command that its opcode's arm of the decoder makes of its fields. -/
theorem decode_assembled_eq {op : BitVec 8} {rd rs : BitVec 2} {a b8 : Byte} {din : BitVec 64}
    {i j : Instr} (fmt : Format)
    (hd : decodeFields ⟨op, rd, rs, 0, a, b8⟩ din = accept fmt ⟨op, rd, rs, 0, a, b8⟩ j)
    (hz : fmt.fixedZero ⟨op, rd, rs, 0, a, b8⟩ = true) (hij : j = i) :
    decode (assembled op rd rs a b8 din) = .ok i := by
  rw [decode_assembled, hd, accept_of_fixedZero hz, hij]

/-- Settles O1, by the nine formats: the fields an encoding fills are those its arm of the decoder reads, and
the others are zero. -/
theorem decodeOfEncode : Obligations.DecodeOfEncode := by
  unfold Obligations.DecodeOfEncode
  intro i
  cases i with
  | bfromraw | bempty | bbuild | ffromraw | fempty | fbuild =>
    exact decode_assembled_eq .d rfl rfl (by simp)
  | btoraw | biter | bidxt | bidxf | ftoraw | fiter | pfirst | psecond | ptoraw | sintervals | ssteps
  | cdegrees | cname =>
    exact decode_assembled_eq .s rfl rfl (by simp)
  | bmov | fmov | pmov => exact decode_assembled_eq .ds rfl rfl (by simp)
  | bget | fget | sapply => exact decode_assembled_eq .sa rfl rfl (by simp)
  | bsetidx | ssetint | saddstep => exact decode_assembled_eq .da rfl rfl (by simp)
  | fbset | ppack | csetdeg => exact decode_assembled_eq .dab rfl rfl (by simp)
  | fset => exact decode_assembled_eq .dsab rfl rfl (by simp)
  | cwithroot => exact decode_assembled_eq .dn rfl rfl (by simp [Fields.n16])
  | accdec | degdec => exact decode_assembled_eq .a rfl rfl rfl

/-! ## The rows of the opcode table -/

/-- R66: what a format fixes at zero. -/
theorem Format.fixedZero_iff {fmt : Format} {f : Fields} : fmt.fixedZero f = true ↔
    f.z = 0 ∧ (fmt.usesRd = false → f.rd = 0) ∧ (fmt.usesRs = false → f.rs = 0) ∧
      (fmt.usesA = false → f.a = 0) ∧ (fmt.usesB = false → f.b8 = 0) := by
  simp [Format.fixedZero, or_iff_not_imp_left, and_assoc]

/-- Rows with one opcode are one row (R65). -/
theorem opcodeTable_op_inj {r r' : TableRow} (hr : r ∈ opcodeTable) (hr' : r' ∈ opcodeTable)
    (h : r.op = r'.op) : r = r' :=
  List.inj_on_of_nodup_map (by decide : (opcodeTable.map TableRow.op).Nodup) hr hr' h

/-- At most one row fits a word. -/
theorem fits_unique {r r' : TableRow} {w : BitVec 32} (hr : r ∈ opcodeTable) (hr' : r' ∈ opcodeTable)
    (hf : r.fits w = true) (hf' : r'.fits w = true) : r = r' :=
  opcodeTable_op_inj hr hr'
    (((r.fits_iff w).mp hf).1.symm.trans ((r'.fits_iff w).mp hf').1)

/-- The name handle's halves are the fields it lies over (R62). -/
@[simp] theorem Fields.n16_hi (f : Fields) : f.n16.extractLsb' 8 8 = f.a :=
  BitVec.extractLsb'_append_eq_left

@[simp] theorem Fields.n16_lo (f : Fields) : f.n16.extractLsb' 0 8 = f.b8 :=
  BitVec.extractLsb'_append_eq_right

/-- R69: the part of DIN a command of this opcode reads, the rest 0. -/
def dinRead (op : BitVec 8) (din : BitVec 64) : BitVec 64 :=
  if op.toNat = 0x10 then (din.setWidth 16).setWidth 64 else if op.toNat = 0x20 then din else 0

/-- Fields with a row's opcode decode to a command of the row's mnemonic if the row's format accepts them,
and that command is encoded as those fields and the part of DIN it reads. -/
theorem decodeFields_row {r : TableRow} (hr : r ∈ opcodeTable) {f : Fields} (hop : f.op = r.op)
    (din : BitVec 64) : ∃ i : Instr, i.mnemonic = r.mnemonic ∧ decodeFields f din = accept r.format f i ∧
      (r.format.fixedZero f = true → encode i = ⟨f.word, dinRead f.op din⟩) := by
  obtain ⟨op, rd, rs, z, a, b8⟩ := f
  obtain rfl : op = r.op := hop
  simp only [opcodeTable, rowsBool, rowsField, rowsPair, rowsScale, rowsChord, List.cons_append,
    List.nil_append] at hr
  fin_cases hr
  all_goals
    refine ⟨_, ?mnemonic, rfl, fun hz => ?encoded⟩
    case mnemonic => rfl
    case encoded =>
      simp [Format.fixedZero_iff, Format.usesRd, Format.usesRs, Format.usesA, Format.usesB] at hz
      simp [encode, assembled, dinRead, hz, Fields.dst, Fields.src]

/-- R67: fields with the opcode of no row are no command. -/
theorem decodeFields_reserved {f : Fields} (h : f.op.toNat ∉ opcodeTable.map (·.op.toNat))
    (din : BitVec 64) : decodeFields f din = .error (.reservedOpcode f.op) := by
  unfold decodeFields
  split
  case h_36 => rfl
  all_goals
    next hop => exact absurd (by rw [hop]; decide) h

/-! ## Which words are commands -/

/-- A word that fits a row is a command of the row's mnemonic, encoded as that word. -/
theorem decode_of_fits {r : TableRow} {c : Command} (hr : r ∈ opcodeTable) (hf : r.fits c.cw = true) :
    ∃ i, decode c = .ok i ∧ i.mnemonic = r.mnemonic ∧ encode i = ⟨c.cw, dinRead c.op c.din⟩ := by
  obtain ⟨hop, hz⟩ := (r.fits_iff c.cw).mp hf
  obtain ⟨i, hm, hd, he⟩ := decodeFields_row hr hop c.din
  refine ⟨i, hd.trans (accept_of_fixedZero hz), hm, ?_⟩
  rw [he hz, Fields.word_ofWord]
  rfl

/-- A word that is a command fits a row. -/
theorem fits_of_decode {c : Command} {i : Instr} (h : decode c = .ok i) :
    ∃ r ∈ opcodeTable, r.fits c.cw = true := by
  by_cases hop : (Fields.ofWord c.cw).op.toNat ∈ opcodeTable.map (·.op.toNat)
  · obtain ⟨r, hr, hrop⟩ := List.mem_map.mp hop
    have hrop : (Fields.ofWord c.cw).op = r.op := BitVec.eq_of_toNat_eq hrop.symm
    obtain ⟨j, -, hd, -⟩ := decodeFields_row hr hrop c.din
    exact ⟨r, hr, (r.fits_iff c.cw).mpr ⟨hrop, (accept_ok (hd.symm.trans h)).2⟩⟩
  · cases (decodeFields_reserved hop c.din).symm.trans h

/-- A word is a command iff it fits a row, whatever DIN holds. -/
theorem exists_decode_iff {c : Command} :
    (∃ i, decode c = .ok i) ↔ ∃ r ∈ opcodeTable, r.fits c.cw = true := by
  constructor
  · rintro ⟨i, h⟩
    exact fits_of_decode h
  · rintro ⟨r, hr, hf⟩
    obtain ⟨i, h, -⟩ := decode_of_fits hr hf
    exact ⟨i, h⟩

/-- A command is encoded as its word and the part of DIN it reads. -/
theorem encode_of_decode {c : Command} {i : Instr} (h : decode c = .ok i) :
    encode i = ⟨c.cw, dinRead c.op c.din⟩ := by
  obtain ⟨r, hr, hf⟩ := fits_of_decode h
  obtain ⟨j, hj, -, he⟩ := decode_of_fits hr hf
  obtain rfl : j = i := Except.ok.inj (hj.symm.trans h)
  exact he

/-- Settles O3, by the one row a word fits. -/
theorem wordIsCommandIffOneRowFits : Obligations.WordIsCommandIffOneRowFits := by
  unfold Obligations.WordIsCommandIffOneRowFits
  intro w din
  refine ⟨fun r hr r' hr' hf hf' => fits_unique hr hr' hf hf', exists_decode_iff,
    fun i h r hr hf => ?_⟩
  obtain ⟨j, hj, hm, he⟩ := decode_of_fits (c := ⟨w, din⟩) hr hf
  obtain rfl : j = i := Except.ok.inj (hj.symm.trans h)
  exact ⟨hm.symm, congrArg Command.cw he⟩

/-! ## What a command reads of DIN (R69) -/

/-- R69, with the opcode and DIN read as numbers. -/
theorem dinRead_toNat (c : Command) : (dinRead c.op c.din).toNat =
    if c.cw.toNat / 2 ^ 24 = 0x10 then c.din.toNat % 2 ^ 16
    else if c.cw.toNat / 2 ^ 24 = 0x20 then c.din.toNat else 0 := by
  unfold dinRead
  rw [Machine.op_toNat]
  split_ifs
  · simp only [BitVec.toNat_setWidth]
    omega
  · rfl
  · rfl

/-- Settles O2: the encoding of a decoded command is its word and the part of DIN it reads. -/
theorem encodeOfDecode : Obligations.EncodeOfDecode := by
  unfold Obligations.EncodeOfDecode
  intro c i h
  rw [encode_of_decode h]
  exact ⟨rfl, dinRead_toNat c⟩

/-- Decoding reads no more of DIN than `dinRead` keeps. -/
theorem decodeFields_dinRead (f : Fields) (din : BitVec 64) :
    decodeFields f (dinRead f.op din) = decodeFields f din := by
  unfold decodeFields
  split
  case h_1 hop => simp [dinRead, hop]
  case h_11 hop => simp [dinRead, hop]
  all_goals rfl

/-- Two DIN of which a word's opcode reads the same decode alike. -/
theorem decode_congr_dinRead {w : BitVec 32} {d d' : BitVec 64}
    (h : dinRead (Fields.ofWord w).op d = dinRead (Fields.ofWord w).op d') :
    decode ⟨w, d⟩ = decode ⟨w, d'⟩ :=
  calc decode ⟨w, d⟩
    _ = decodeFields (Fields.ofWord w) (dinRead (Fields.ofWord w).op d) :=
      (decodeFields_dinRead _ d).symm
    _ = decodeFields (Fields.ofWord w) (dinRead (Fields.ofWord w).op d') := by rw [h]
    _ = decode ⟨w, d'⟩ := decodeFields_dinRead _ d'

/-- Settles O5: a word fits a row whatever DIN is, and decoding reads of DIN what `dinRead` keeps. -/
theorem dinIgnored : Obligations.DinIgnored := by
  unfold Obligations.DinIgnored
  intro w d d'
  have hd := dinRead_toNat ⟨w, d⟩
  have hd' := dinRead_toNat ⟨w, d'⟩
  refine ⟨(exists_decode_iff (c := ⟨w, d⟩)).trans (exists_decode_iff (c := ⟨w, d'⟩)).symm,
    fun h10 h20 => ?_, fun h10 hlow => ?_⟩
  · rw [if_neg h10, if_neg h20] at hd hd'
    exact decode_congr_dinRead (BitVec.eq_of_toNat_eq (hd.trans hd'.symm))
  · rw [if_pos h10] at hd hd'
    exact decode_congr_dinRead (BitVec.eq_of_toNat_eq ((hd.trans hlow).trans hd'.symm))

/-! ## The assembler (R70, R71) -/

/-- R63, R64: the format uses the fields that an operand of this kind is placed in. -/
def Format.admits (fmt : Format) : OperandKind → Bool
  | .dst _ => fmt.usesRd
  | .src _ => fmt.usesRs
  | .immA | .codeA => fmt.usesA
  | .immB | .codeB => fmt.usesB
  | .name16 => fmt.usesA && fmt.usesB
  | .raw16 | .raw64 => true

/-- R65: the operands of a row stand in fields its format uses. -/
theorem opcodeTable_admits : ∀ r ∈ opcodeTable, ∀ k ∈ r.operands, r.format.admits k = true := by decide

namespace Asm

theorem fit_ok {α : Type} {most n : Nat} {e : Reject} {v w : α} (h : fit most n e v = .ok w) : v = w := by
  unfold fit at h
  split at h
  · exact Except.ok.inj h
  · cases h

/-- Placing an operand that a format admits keeps the opcode and what the format fixes at zero. -/
theorem place_fixedZero {fmt : Format} {k : OperandKind} {o : Operand} {f f' : Fields}
    {din din' : BitVec 64} (h : place k o f din = .ok (f', din')) (hk : fmt.admits k = true)
    (hz : fmt.fixedZero f = true) : f'.op = f.op ∧ fmt.fixedZero f' = true := by
  unfold place at h
  rw [Format.fixedZero_iff] at hz ⊢
  split at h
  case h_1 | h_2 =>
    split at h
    · cases fit_ok h
      simp_all [Format.admits]
    · cases h
  case h_12 => cases h
  all_goals
    cases fit_ok h
    simp_all [Format.admits]

/-- Placing operands that a format admits, into fields the format accepts, gives a word it accepts. -/
theorem placeAll_fixedZero {fmt : Format} {ks : List OperandKind} {os : List Operand} {f : Fields}
    {din : BitVec 64} {c : Command} (h : placeAll ks os f din = .ok c)
    (hk : ∀ k ∈ ks, fmt.admits k = true) (hz : fmt.fixedZero f = true) :
    (Fields.ofWord c.cw).op = f.op ∧ fmt.fixedZero (Fields.ofWord c.cw) = true := by
  induction ks generalizing os f din with
  | nil =>
    cases os with
    | nil =>
      obtain rfl := Except.ok.inj h
      rw [Fields.ofWord_word]
      exact ⟨rfl, hz⟩
    | cons o os => cases h
  | cons k ks ih =>
    cases os with
    | nil => cases h
    | cons o os =>
      obtain ⟨hkhd, hks⟩ := List.forall_mem_cons.mp hk
      rw [placeAll] at h
      split at h
      next f' din' hp =>
        obtain ⟨hop, hz'⟩ := place_fixedZero hp hkhd hz
        obtain ⟨hop', hfz⟩ := ih h hks hz'
        exact ⟨hop'.trans hop, hfz⟩
      next => cases h

theorem rowOf_some {m : String} {r : TableRow} (h : rowOf m = some r) :
    r ∈ opcodeTable ∧ r.mnemonic = expand m :=
  ⟨List.mem_of_find?_eq_some h, by simpa using List.find?_some h⟩

/-- A line that assembles gives a word that fits the row of its mnemonic. -/
theorem assemble_ok {l : Line} {c : Command} (h : assemble l = .ok c) :
    ∃ r ∈ opcodeTable, r.mnemonic = expand l.mnemonic ∧ r.fits c.cw = true := by
  unfold assemble at h
  split at h
  next r hrow =>
    obtain ⟨hr, hm⟩ := rowOf_some hrow
    have hz : r.format.fixedZero ⟨r.op, 0, 0, 0, 0, 0⟩ = true := by
      simp [Format.fixedZero_iff]
    exact ⟨r, hr, hm, (r.fits_iff c.cw).mpr (placeAll_fixedZero h (opcodeTable_admits r hr) hz)⟩
  next => cases h

/-- Mnemonics that expand to one command assemble alike. -/
theorem assemble_congr {m m' : String} (h : expand m = expand m') (ops : List Operand) :
    assemble ⟨m, ops⟩ = assemble ⟨m', ops⟩ := by
  simp only [assemble, rowOf, h]

theorem expand_of_not_pseudo {m : String}
    (h : m ∉ ["SFROMRAW", "STORAW", "SEMPTY", "SBUILD", "CBUILD", "CTORAW"]) : expand m = m := by
  unfold expand
  split
  case h_7 => rfl
  all_goals exact absurd (by decide) h

end Asm

/-- Settles O7: what the assembler makes fits the row of the mnemonic. -/
theorem assembledLineDecodes : Obligations.AssembledLineDecodes := by
  unfold Obligations.AssembledLineDecodes
  intro l c h
  obtain ⟨r, hr, hm, hf⟩ := Asm.assemble_ok h
  obtain ⟨i, hd, hi, -⟩ := decode_of_fits hr hf
  exact ⟨i, hd, hi.trans hm⟩

/-- Settles O8, by what each mnemonic expands to. -/
theorem pseudoInstructionsExpand : Obligations.PseudoInstructionsExpand := by
  unfold Obligations.PseudoInstructionsExpand
  intro ops
  exact ⟨Asm.assemble_congr rfl ops, Asm.assemble_congr rfl ops, Asm.assemble_congr rfl ops,
    Asm.assemble_congr rfl ops, Asm.assemble_congr rfl ops, Asm.assemble_congr rfl ops,
    fun _ => Asm.expand_of_not_pseudo⟩

/-- Settles O6, by running the decoder. -/
theorem sampleWordsDecode : Obligations.SampleWordsDecode := by
  unfold Obligations.SampleWordsDecode
  decide

end Sys2Proof

namespace Sys2Proof.Machine

/-! ## The step (R73) -/

section Step

variable {s : State} {c : Command} {rest : List HostEvent} (hh : s.host = .present c :: rest)
include hh

theorem step_halted (hs : s.st = .fault) : step s = .next { s with host := rest } :=
  (step_cons hh).trans (present_halted c hs)

/-- R66, R67: an illegal word faults ILLEGAL_COMMAND with its opcode. -/
theorem step_illegal (hs : s.st ≠ .fault) {e : Illegal} (hd : decode c = .error e) :
    step s = .next ({ s with host := rest }.faulted 1 (c.cw.toNat / 2 ^ 24)) := by
  have hp := present_error (s := { s with host := rest }) hs hd
  rw [enterFault_eq_faulted, op_toNat] at hp
  exact (step_cons hh).trans hp

theorem step_decoded (hs : s.st ≠ .fault) {i : Instr} (hd : decode c = .ok i) :
    step s = exec i { s with host := rest } :=
  (step_cons hh).trans (present_ok hs hd)

/-- R73: a unit that is not halted answers a command with one of three outcomes. -/
theorem step_outcome (hs : s.st ≠ .fault) : ∃ t, step s = .next t ∧
    (t.st = .ok ∨ t = { s with host := rest, st := .decodeFail } ∨
      ∃ cause info, t = { s with host := rest }.faulted cause info) := by
  cases hd : decode c with
  | error e => exact ⟨_, step_illegal hh hs hd, .inr (.inr ⟨_, _, rfl⟩)⟩
  | ok i =>
    obtain ⟨t, ht⟩ := exec_answers i { s with host := rest }
    refine ⟨t, (step_decoded hh hs hd).trans ht, ?_⟩
    obtain ⟨-, rfl⟩ | ⟨-, ⟨cause, v, rfl⟩ | rfl⟩ := exec_next ht
    · exact .inl rfl
    · exact .inr (.inr ⟨_, _, enterFault_eq_faulted ..⟩)
    · exact .inr (.inl rfl)

end Step

/-- Settles O4: a word that fits no row is no command. -/
theorem illegalWordFaults : Obligations.IllegalWordFaults := by
  unfold Obligations.IllegalWordFaults
  intro s c rest hh hs hfit
  cases hd : decode c with
  | error e => exact step_illegal hh hs hd
  | ok i =>
    obtain ⟨r, hr, hf⟩ := fits_of_decode hd
    exact absurd hf (Bool.eq_false_iff.mp (hfit r hr))

/-- Settles O9, by the four cases of a step with a command. -/
theorem stepRunsDecodedCommand : Obligations.StepRunsDecodedCommand := by
  unfold Obligations.StepRunsDecodedCommand
  intro s c rest hh
  exact ⟨step_halted hh, fun hs _ => step_illegal hh hs, fun hs _ => step_decoded hh hs,
    step_outcome hh⟩

end Sys2Proof.Machine
end

section
/-!
The statements of 40_boolvector16.md, with those they share with 41_field16x4.md and 42_packedpair4.md.
Every word is read through `decode_word`, every completed command through `exec_ready_eq`, and a program
whose commands all complete through `Completes`.
-/

namespace Sys2Proof

/-! ## Command words by number (R62) -/

/-- A word with the fields of an encoding, presented with a DIN of which it reads what the encoding holds, is
the encoded command. -/
theorem decode_word {i : Instr} {op : BitVec 8} {rd rs : BitVec 2} {a b8 : Byte} {n : Nat} {din : BitVec 64}
    (he : encode i = assembled op rd rs a b8 (dinRead op din))
    (hn : cwNumber op.toNat rd.toNat rs.toNat a.toNat b8.toNat = n := by simp [RegNo.bits_toNat]) :
    decode ⟨BitVec.ofNat 32 n, din⟩ = .ok i :=
  calc decode ⟨BitVec.ofNat 32 n, din⟩
    _ = decode (assembled op rd rs a b8 din) := by
      rw [← hn, ← assembled_cw_toNat op rd rs a b8 din, BitVec.ofNat_toNat, BitVec.setWidth_eq]
      rfl
    _ = decodeFields ⟨op, rd, rs, 0, a, b8⟩ din := decode_assembled ..
    _ = decodeFields ⟨op, rd, rs, 0, a, b8⟩ (dinRead op din) := (decodeFields_dinRead _ din).symm
    _ = decode (encode i) := by rw [he, decode_assembled]
    _ = .ok i := decodeOfEncode i

/-- The word of a command that reads nothing of DIN. -/
theorem wordOf_of_encode {i : Instr} {op : BitVec 8} {rd rs : BitVec 2} {a b8 : Byte} {nop nd ns na nb : Nat}
    (he : ∀ din, encode i = assembled op rd rs a b8 (dinRead op din))
    (hn : cwNumber op.toNat rd.toNat rs.toNat a.toNat b8.toNat = cwNumber nop nd ns na nb := by
      simp [RegNo.bits_toNat]) :
    WordOf i nop nd ns na nb :=
  fun din => decode_word (he din) hn

end Sys2Proof

namespace Sys2Proof.Machine

/-! ## Checks that pass, and commands that complete -/

theorem requireBuilt_of_built {t : Tag} {k : RegNo} {s : State} {body : Result} (h : t = .built) :
    requireBuilt t k s body = body := by
  rw [h, requireBuilt_built]

theorem requireBuilding_of_building {t : Tag} {k : RegNo} {s : State} {body : Result}
    (h : t = .building) : requireBuilding t k s body = body := by
  rw [h, requireBuilding_building]

/-- A ready command answers its completed state and no other. -/
theorem eq_of_exec_ready {i : Instr} {s t : State} (hr : ready s i = true) (h : exec i s = .next t) :
    t = (written s i).setSt .ok :=
  Host_next_inj.mp (h.symm.trans (exec_ready hr))

/-! ## Programs whose commands all complete (R198) -/

/-- The commands, run one after another from `s`, all complete, and `t` is the state after the last. -/
inductive Completes : State → List Instr → State → Prop
  | nil {s : State} : Completes s [] s
  | cons {s t : State} {i : Instr} {l : List Instr} (hr : ready s i = true)
      (h : Completes ((written s i).setSt .ok) l t) : Completes s (i :: l) t

theorem Completes.append {s t u : State} {l m : List Instr} (h : Completes s l t)
    (h' : Completes t m u) : Completes s (l ++ m) u := by
  induction h with
  | nil => exact h'
  | cons hr _ ih => exact .cons hr (ih h')

theorem ready_withHost (s : State) (i : Instr) (evs : List HostEvent) :
    ready { s with host := evs } i = ready s i := by
  cases i <;> rfl

theorem written_withHost (s : State) (i : Instr) (evs : List HostEvent) :
    written { s with host := evs } i = { written s i with host := evs } := by
  cases i <;> rfl

/-- The next command completes, whatever the host does after it. -/
theorem step_encoded {s : State} {i : Instr} (hs : s.st ≠ .fault) (hr : ready s i = true)
    (evs : List HostEvent) : step { s with host := .present (encode i) :: evs }
      = .next { (written s i).setSt .ok with host := evs } :=
  calc step { s with host := .present (encode i) :: evs }
    _ = exec i { s with host := evs } :=
      step_decoded (s := { s with host := _ }) rfl hs (decodeOfEncode i)
    _ = .next { (written s i).setSt .ok with host := evs } :=
      exec_ready_eq ((ready_withHost s i evs).trans hr)
        (congrArg (State.setSt · .ok) (written_withHost s i evs))

/-- A unit that is not halted, given the commands of such a program, runs it. -/
theorem Completes.runFor_eq {s t : State} {l : List Instr} {n : Nat} (h : Completes s l t)
    (hs : s.st ≠ .fault) (rest : List HostEvent) (hn : l.length = n) :
    runFor n { s with host := commands l ++ rest } = .next { t with host := rest } := by
  subst hn
  induction h with
  | nil => rfl
  | @cons _ _ _ l hr _ ih => exact (runFor_succ l.length (step_encoded hs hr _)).trans (ih nofun)

/-- The same, with the host about to present the program and nothing else. -/
theorem Completes.runFor_given {s t : State} {l : List Instr} {n : Nat} (h : Completes s l t)
    (hs : s.st ≠ .fault) (hn : l.length = n) : runFor n (s.given l) = .next { t with host := [] } := by
  have hrun := h.runFor_eq hs [] hn
  rwa [List.append_nil] at hrun

/-! ## Delivered bits, fields and positions (R83 to R85, R104) -/

/-- Entry `i` of the delivered bits is bit `i`. -/
theorem seqBuffer_bitsOf_toNat (w : Raw16) {i : Fin 32} (hi : (i : Nat) < 16) :
    (seqBuffer (bitsOf w))[i].toNat = (bitOf w i).toNat := by
  have hbyte : (bitsOf w).getD i 0 = (bitOf w i).setWidth 8 := by
    simp [bitsOf, positions, Config.slots, hi]
  rw [seqBuffer_getElem, hbyte, BitVec.toNat_setWidth_of_le (by decide)]

/-- Entry `i` of the delivered fields is field `i`. -/
theorem seqBuffer_fieldsOf_toNat (w : Raw64) {i : Fin 32} (hi : (i : Nat) < 16) :
    (seqBuffer (fieldsOf w))[i].toNat = (fieldOf w i).toNat := by
  have hbyte : (fieldsOf w).getD i 0 = (fieldOf w i).setWidth 8 := by
    simp [fieldsOf, positions, Config.slots, hi]
  rw [seqBuffer_getElem, hbyte, BitVec.toNat_setWidth_of_le (by decide)]

/-- A command that completes with a list of at most sixteen positions delivers it. -/
theorem deliversOk_of_positions {s : State} {r : Result} {l : List Nat} {P : Nat → Prop}
    (hr : r = .next ((s.setSeq (l.map byte)).setSt .ok)) (hl : l.length ≤ 16)
    (hm : ∀ n, n ∈ l ↔ n < 16 ∧ P n) : DeliversOk s r l :=
  deliversOk_of_setSeq hr
    (setSeq_delivers s l (hl.trans (by decide)) fun n hn => ((hm n).mp hn).1.trans (by decide))

/-! ## Building a word from positions (R87) -/

theorem not_isSet_zero (i : Nat) : ¬ isSet 0 i := by simp [isSet]

/-- The word with the bits of these positions set as well. -/
def withBits (w : Raw16) (idx : List Byte) : Raw16 := idx.foldl (fun v a => withBit v a.toNat) w

theorem isSet_withBits (w : Raw16) {idx : List Byte} (hidx : ∀ i ∈ idx, i.toNat < 16) (j : Nat) :
    isSet (withBits w idx) j ↔ isSet w j ∨ ∃ i ∈ idx, i.toNat = j := by
  induction idx generalizing w with
  | nil => simp [withBits]
  | cons a idx ih =>
    obtain ⟨ha, hidx⟩ := List.forall_mem_cons.mp hidx
    calc isSet (withBits (withBit w a.toNat) idx) j
      _ ↔ isSet (withBit w a.toNat) j ∨ ∃ i ∈ idx, i.toNat = j := ih _ hidx
      _ ↔ (isSet w j ∨ j = a.toNat) ∨ ∃ i ∈ idx, i.toNat = j := by rw [isSet_withBit w ha]
      _ ↔ isSet w j ∨ ∃ i ∈ a :: idx, i.toNat = j := by
        rw [List.exists_mem_cons_iff, or_assoc, eq_comm (a := j)]

/-- BSETIDX of each position, in order, sets their bits in the builder and keeps the rest of it. -/
theorem completes_bsetidx {s : State} {k : RegNo} {idx : List Byte} (htag : (s.b.get k).tag = .building)
    (hidx : ∀ i ∈ idx, i.toNat < 16) : ∃ t, Completes s (idx.map (.bsetidx k)) t ∧
      t.b.get k = { s.b.get k with raw := withBits (s.b.get k).raw idx } := by
  induction idx generalizing s with
  | nil => exact ⟨s, .nil, rfl⟩
  | cons a idx ih =>
    obtain ⟨ha, hidx⟩ := List.forall_mem_cons.mp hidx
    have hcell : ((written s (.bsetidx k a)).setSt .ok).b.get k
        = { s.b.get k with raw := withBit (s.b.get k).raw a.toNat } := Quad.get_set_same ..
    obtain ⟨t, ht, hb⟩ := ih (by rw [hcell]; exact htag) hidx
    refine ⟨t, .cons (by simp [ready, htag, ha]) ht, ?_⟩
    rw [hb, hcell]
    rfl

/-! ## One command -/

/-- Settles O31: the sequence is `bitsOf` of the word. -/
theorem biterDeliversBits : Obligations.BiterDeliversBits := by
  unfold Obligations.BiterDeliversBits
  intro s rs
  refine ⟨wordOf_of_encode (fun _ => rfl), requireBuilt_faulted,
    fun hb => deliversOk_of_setSeq (exec_ready (by simp [ready, hb])) ?_⟩
  have hd := setSeq_delivers_bytes s (bitsOf (s.b.get rs).raw) (by simp)
  rwa [bitsOf_map_toNat] at hd

/-- Settles O32: the sequences are `setPositions` and `clearPositions` of the word. -/
theorem indexListsAscending : Obligations.IndexListsAscending := by
  unfold Obligations.IndexListsAscending
  intro s rs
  refine ⟨wordOf_of_encode (fun _ => rfl), wordOf_of_encode (fun _ => rfl),
    fun hb => ⟨requireBuilt_faulted hb, requireBuilt_faulted hb⟩, fun hb => ⟨?set, ?clear⟩⟩
  case set =>
    exact ⟨_, setPositions_sorted _, mem_setPositions _,
      deliversOk_of_positions (exec_ready (by simp [ready, hb])) (setPositions_length_le _)
        (mem_setPositions _)⟩
  case clear =>
    exact ⟨_, clearPositions_sorted _, mem_clearPositions _,
      deliversOk_of_positions (exec_ready (by simp [ready, hb])) (clearPositions_length_le _)
        (mem_clearPositions _)⟩

/-- Settles O33: the new word is `withBit` of the old. -/
theorem bsetidxSetsBit : Obligations.BsetidxSetsBit := by
  unfold Obligations.BsetidxSetsBit
  intro s rd a
  refine ⟨wordOf_of_encode (fun _ => rfl), requireBuilding_faulted,
    fun hb ha => ?range, fun hb ha => ?completes⟩
  case range =>
    exact (requireBuilding_of_building hb).trans (requireElseFault_faulted ((not_indexOk a).mpr ha))
  case completes =>
    refine ⟨withBit (s.b.get rd).raw a.toNat, fun j _ => isSet_withBit _ ha j,
      exec_ready_eq (by simp [ready, hb, ha]) ?_⟩
    rw [← hb]
    rfl

/-- Settles O25: neither command has a check. -/
theorem fromRawLoads : Obligations.FromRawLoads := by
  unfold Obligations.FromRawLoads
  intro s rd
  exact ⟨fun _ => ⟨decode_word rfl, decode_word rfl⟩, fun _ => rfl, fun _ => rfl⟩

/-- Settles O26: the check is of the source's tag, and RES takes the word at its own or a greater width. -/
theorem toRawReports : Obligations.ToRawReports := by
  unfold Obligations.ToRawReports
  intro s rs
  refine ⟨wordOf_of_encode (fun _ => rfl), wordOf_of_encode (fun _ => rfl), requireBuilt_faulted,
    fun hb => exec_ready_eq (by simp [ready, hb]) ?_, requireBuilt_faulted,
    fun hb => exec_ready_eq (by simp [ready, hb]) rfl⟩
  rw [BitVec.ofNat_toNat]
  rfl

/-- Settles O27: neither command has a check. -/
theorem emptyStartsBuilder : Obligations.EmptyStartsBuilder := by
  unfold Obligations.EmptyStartsBuilder
  intro s rd
  exact ⟨wordOf_of_encode (fun _ => rfl), wordOf_of_encode (fun _ => rfl), rfl, rfl⟩

/-- Settles O28: the check is of the register's tag, and only that tag changes. -/
theorem buildFinishesOnce : Obligations.BuildFinishesOnce := by
  unfold Obligations.BuildFinishesOnce
  intro s rd
  refine ⟨wordOf_of_encode (fun _ => rfl), wordOf_of_encode (fun _ => rfl), requireBuilding_faulted,
    fun hb => exec_ready_eq (by simp [ready, hb]) ?_, requireBuilding_faulted,
    fun hb => exec_ready_eq (by simp [ready, hb]) rfl⟩
  rw [BitVec.ofNat_toNat]
  rfl

/-- Settles O29: a copy reads its source before it writes. -/
theorem movCopies : Obligations.MovCopies := by
  unfold Obligations.MovCopies
  intro s rd rs
  exact ⟨wordOf_of_encode (fun _ => rfl), wordOf_of_encode (fun _ => rfl),
    wordOf_of_encode (fun _ => rfl),
    requireBuilt_faulted, fun hb => exec_ready_eq (by simp [ready, hb]) rfl,
    requireBuilt_faulted, fun hb => exec_ready_eq (by simp [ready, hb]) rfl, rfl⟩

/-- Settles O30: the bit is `bitOf` of the word. -/
theorem bgetReportsBit : Obligations.BgetReportsBit := by
  unfold Obligations.BgetReportsBit
  intro s rs a
  refine ⟨wordOf_of_encode (fun _ => rfl), requireBuilt_faulted,
    fun hb ha => ?range, fun hb ha => exec_ready_eq (by simp [ready, hb, ha]) ?bit⟩
  case range =>
    exact (requireBuilt_of_built hb).trans (requireElseFault_faulted ((not_indexOk a).mpr ha))
  case bit =>
    rw [← bitOf_toNat, BitVec.ofNat_toNat]
    rfl

/-! ## Several commands -/

/-- Settles O50: the load leaves a finished value, so the report after it completes. -/
theorem rawRoundTrip : Obligations.RawRoundTrip := by
  unfold Obligations.RawRoundTrip
  intro s k rest hs
  refine ⟨fun v => ?bool, fun v => ?field⟩
  case bool =>
    have hrun : Completes s [.bfromraw k v, .btoraw k] _ :=
      .cons rfl (.cons (by simp [ready, written]) .nil)
    refine ⟨_, hrun.runFor_eq hs rest rfl, ?_, rfl, rfl⟩
    simp [written, -BitVec.toNat_setWidth, BitVec.toNat_setWidth_of_le]
  case field =>
    have hrun : Completes s [.ffromraw k v, .ftoraw k] _ :=
      .cons rfl (.cons (by simp [ready, written]) .nil)
    exact ⟨_, hrun.runFor_eq hs rest rfl, by simp [written], rfl, rfl⟩

/-- Settles O51: the report and the entry are one bit (field), and iterating keeps the register it reads. -/
theorem getAgreesWithIterate : Obligations.GetAgreesWithIterate := by
  unfold Obligations.GetAgreesWithIterate
  intro s t u v k i hi
  have hi8 : (BitVec.ofNat 8 i).toNat = i := by
    rw [BitVec.toNat_ofNat]
    omega
  refine ⟨fun hb ht hu => ?bool, fun hf ht hu => ?field⟩
  case bool =>
    obtain rfl := eq_of_exec_ready (by simp [ready, hb, hi8, hi]) ht
    obtain rfl := eq_of_exec_ready (by simp [ready, hb]) hu
    refine ⟨?entry, fun hv => ?again⟩
    case entry =>
      refine Eq.trans ?_ (seqBuffer_bitsOf_toNat (s.b.get k).raw hi).symm
      simp [written, hi8, -BitVec.toNat_setWidth, BitVec.toNat_setWidth_of_le]
    case again =>
      obtain rfl := eq_of_exec_ready (by simpa [ready, written] using hb) hv
      exact ⟨rfl, rfl⟩
  case field =>
    obtain rfl := eq_of_exec_ready (by simp [ready, hf, hi8, hi]) ht
    obtain rfl := eq_of_exec_ready (by simp [ready, hf]) hu
    refine Eq.trans ?_ (seqBuffer_fieldsOf_toNat (s.f.get k).raw hi).symm
    simp [written, hi8, -BitVec.toNat_setWidth, BitVec.toNat_setWidth_of_le]

/-- Settles O54: the BSETIDX commands leave the builder `withBits` of the empty word. -/
theorem boolBuilderIsDirect : Obligations.BoolBuilderIsDirect := by
  unfold Obligations.BoolBuilderIsDirect
  intro s k idx hs hidx
  have hempty : ((written s (.bempty k)).setSt .ok).b.get k = ⟨0, .building, 0⟩ := Quad.get_set_same ..
  obtain ⟨t, hset, hcell⟩ := completes_bsetidx (by rw [hempty]) hidx
  rw [hempty] at hcell
  have hrun : Completes s (.bempty k :: idx.map (.bsetidx k) ++ [.bbuild k])
      ((written t (.bbuild k)).setSt .ok) :=
    .cons rfl (hset.append (.cons (by simp [ready, hcell]) .nil))
  have hbuilt : (written t (.bbuild k)).b.get k = ⟨withBits 0 idx, .built, 0⟩ := by
    simp [written, hcell]
  have hres : (written t (.bbuild k)).res.toNat = (withBits 0 idx).toNat := by
    simp [written, hcell, -BitVec.toNat_setWidth, BitVec.toNat_setWidth_of_le]
  have hbits (j : Nat) : isSet (withBits 0 idx) j ↔ ∃ i ∈ idx, i.toNat = j :=
    (isSet_withBits 0 hidx j).trans (or_iff_right (not_isSet_zero j))
  have hdirect : (s.b.set k ⟨withBits 0 idx, .built, 0⟩).get k = (written t (.bbuild k)).b.get k :=
    (Quad.get_set_same ..).trans hbuilt.symm
  exact ⟨_, withBits 0 idx, hrun.runFor_given hs (by simp), rfl, rfl, hbuilt, fun j _ => hbits j, hres, _,
    rfl, hdirect⟩

end Sys2Proof.Machine
end

section
/-!
The statements of 41_field16x4.md, with the one of 44_chord.md about what FITER delivers. A field that FSET,
FBSET or CSETDEG writes is read through `slot_setfield`, and a list of field writes through `withFields`.
-/

namespace Sys2Proof.Machine

/-! ## Reports, checks and runs -/

/-- The range check of a slot index (R64) that fails. -/
theorem requireIndex_faulted {a : Byte} {s : State} {body : Result} (ha : 16 ≤ a.toNat) :
    requireElseFault (indexOk a) .indexRange a s body = .next (s.faulted 2 a.toNat) :=
  requireElseFault_faulted ((not_indexOk a).mpr ha)

/-- RES of a field report is the field's number. -/
theorem fieldOf_reported (w : Raw64) (i : Nat) :
    (fieldOf w i).setWidth 64 = BitVec.ofNat 64 (slot w i) := by
  rw [← fieldOf_toNat, BitVec.ofNat_toNat]

/-- FGET reports the number in the field (R102). -/
theorem written_fget_res (s : State) (rs : RegNo) (a : Byte) :
    (written s (.fget rs a)).res = BitVec.ofNat 64 (slot (s.f.get rs).raw a.toNat) :=
  fieldOf_reported ..

/-- FSET writes its destination from its source (R103). -/
theorem written_fset_get (s : State) (rd rs : RegNo) (a v : Byte) :
    (written s (.fset rd rs a v)).f.get rd
      = ⟨setfield (s.f.get rs).raw a.toNat v, .built, (s.f.get rs).name⟩ :=
  Quad.get_set_same ..

/-- A program of completing commands that starts with ST at OK ends with it. -/
theorem Completes.st_ok {s t : State} {l : List Instr} (h : Completes s l t) (hs : s.st = .ok) :
    t.st = .ok := by
  induction h with
  | nil => exact hs
  | cons _ _ ih => exact ih rfl

/-! ## One command -/

/-- Settles O34: the field is `fieldOf` of the word. -/
theorem fgetReportsField : Obligations.FgetReportsField := by
  unfold Obligations.FgetReportsField
  intro s rs a
  refine ⟨wordOf_of_encode (fun _ => rfl), requireBuilt_faulted,
    fun hb ha => (requireBuilt_of_built hb).trans (requireIndex_faulted ha),
    fun hb ha => exec_ready_eq (by simp [ready, hb, ha]) ?_⟩
  rw [← fieldOf_reported]
  rfl

/-- Settles O35: the new word is `setfield` of the source's, read before the destination is written. -/
theorem fsetReplacesField : Obligations.FsetReplacesField := by
  unfold Obligations.FsetReplacesField
  intro s rd rs a v
  exact ⟨wordOf_of_encode (fun _ => rfl), requireBuilt_faulted,
    fun hb ha => (requireBuilt_of_built hb).trans (requireIndex_faulted ha),
    fun hb ha => ⟨setfield (s.f.get rs).raw a.toNat v, fun _ hj => slot_setfield _ ha hj v,
      exec_ready_eq (by simp [ready, hb, ha]) rfl⟩⟩

/-- Settles O36: the sequence is `fieldsOf` of the word. -/
theorem fiterDeliversFields : Obligations.FiterDeliversFields := by
  unfold Obligations.FiterDeliversFields
  intro s rs
  refine ⟨wordOf_of_encode (fun _ => rfl), requireBuilt_faulted,
    fun hb => deliversOk_of_setSeq (exec_ready (by simp [ready, hb])) ?_⟩
  have hd := setSeq_delivers_bytes s (fieldsOf (s.f.get rs).raw) (by simp)
  rwa [fieldsOf_map_toNat] at hd

/-- Settles O37: the new word is `setfield` of the builder's. -/
theorem fbsetReplacesField : Obligations.FbsetReplacesField := by
  unfold Obligations.FbsetReplacesField
  intro s rd a v
  refine ⟨wordOf_of_encode (fun _ => rfl), requireBuilding_faulted,
    fun hb ha => (requireBuilding_of_building hb).trans (requireIndex_faulted ha),
    fun hb ha => ⟨setfield (s.f.get rd).raw a.toNat v, fun _ hj => slot_setfield _ ha hj v,
      exec_ready_eq (by simp [ready, hb, ha]) ?_⟩⟩
  rw [← hb]
  rfl

/-! ## Isolation and overwrite -/

/-- Settles O52: the report is of the source's own field (isolation) or of the second value (overwrite). -/
theorem fieldIsolationAndOverwrite : Obligations.FieldIsolationAndOverwrite := by
  unfold Obligations.FieldIsolationAndOverwrite
  intro s fd fs i j x y hs hb hi hj
  have hset : ready s (.fset fd fs i x) = true := by simp [ready, hb, hi]
  refine ⟨fun hij => ?isolation, ?overwrite⟩
  case isolation =>
    have hrun : Completes s [.fset fd fs i x, .fget fd j] _ :=
      .cons hset (.cons (by simp [ready, written_fset_get, hj]) .nil)
    refine ⟨_, _, hrun.runFor_given hs rfl, exec_ready (by simp [ready, hb, hj]), rfl, ?_⟩
    have hji : j.toNat ≠ i.toNat := fun h => hij (BitVec.eq_of_toNat_eq h.symm)
    simp only [State.setSt_res, State.setSt_f, written_fget_res, written_fset_get,
      slot_setfield _ hi hj, if_neg hji]
  case overwrite =>
    have hrun : Completes s [.fset fd fs i x, .fset fd fd i y, .fget fd i] _ :=
      .cons hset (.cons (by simp [ready, written_fset_get, hi])
        (.cons (by simp [ready, written_fset_get, hi]) .nil))
    refine ⟨_, hrun.runFor_given hs rfl, rfl, ?_⟩
    simp only [State.setSt_res, State.setSt_f, written_fget_res, written_fset_get,
      slot_setfield _ hi hi, if_pos, BitVec.toNat_ofNat]
    omega

/-! ## Building a word from (index, value) pairs (R106) -/

/-- The word with each of these fields replaced in order. -/
def withFields (w : Raw64) (sets : List (Byte × Byte)) : Raw64 :=
  sets.foldl (fun v p => setfield v p.1.toNat p.2) w

/-- The last value given to a field stands in it, masked. -/
theorem slot_withFields (w : Raw64) {sets : List (Byte × Byte)} (hsets : ∀ p ∈ sets, p.1.toNat < 16)
    {j : Nat} (hj : j < 16) : slot (withFields w sets) j =
      ((sets.filter fun p => p.1.toNat = j).getLast?.map fun p => p.2.toNat % 16).getD (slot w j) := by
  induction sets generalizing w with
  | nil => rfl
  | cons p sets ih =>
    obtain ⟨hp, hsets⟩ := List.forall_mem_cons.mp hsets
    have hslot := (ih (setfield w p.1.toNat p.2) hsets).trans
      (congrArg (Option.getD _) (slot_setfield w hp hj p.2))
    refine hslot.trans ?_
    by_cases hpj : p.1.toNat = j
    · rw [if_pos hpj.symm, List.filter_cons_of_pos (by simpa using hpj), List.getLast?_cons,
        Option.map_some, Option.getD_some, Option.getD_map (fun p : Byte × Byte => p.2.toNat % 16)]
    · rw [if_neg (Ne.symm hpj), List.filter_cons_of_neg (by simpa using hpj)]

/-- While register `k` has tag `g`, the command of a pair with an index below 16 completes, and of the
register it replaces the field alone. -/
def SetsField (k : RegNo) (g : Tag) (cmd : Byte × Byte → Instr) : Prop :=
  ∀ (s : State) (p : Byte × Byte), (s.f.get k).tag = g → p.1.toNat < 16 → ready s (cmd p) = true ∧
    (written s (cmd p)).f.get k = { s.f.get k with raw := setfield (s.f.get k).raw p.1.toNat p.2 }

theorem setsField_fbset (k : RegNo) : SetsField k .building fun p => .fbset k p.1 p.2 :=
  fun _ _ htag hp => ⟨by simp [ready, htag, hp], Quad.get_set_same ..⟩

theorem setsField_fset (k : RegNo) : SetsField k .built fun p => .fset k k p.1 p.2 :=
  fun _ _ htag hp => ⟨by simp [ready, htag, hp], by rw [written_fset_get, ← htag]⟩

/-- Such commands, in order, replace their fields in the register and keep the rest of it. -/
theorem SetsField.completes {k : RegNo} {g : Tag} {cmd : Byte × Byte → Instr} (hcmd : SetsField k g cmd)
    {s : State} {sets : List (Byte × Byte)} (htag : (s.f.get k).tag = g)
    (hsets : ∀ p ∈ sets, p.1.toNat < 16) : ∃ t, Completes s (sets.map cmd) t ∧
      t.f.get k = { s.f.get k with raw := withFields (s.f.get k).raw sets } := by
  induction sets generalizing s with
  | nil => exact ⟨s, .nil, rfl⟩
  | cons p sets ih =>
    obtain ⟨hp, hsets⟩ := List.forall_mem_cons.mp hsets
    obtain ⟨hr, hcell⟩ := hcmd s p htag hp
    obtain ⟨t, ht, hf⟩ := ih (s := (written s (cmd p)).setSt .ok)
      (by rw [State.setSt_f, hcell]; exact htag) hsets
    refine ⟨t, .cons hr ht, ?_⟩
    rw [hf, State.setSt_f, hcell]
    rfl

theorem slot_zero (j : Nat) : slot 0 j = 0 := by simp [slot]

/-- Settles O55: the builder and the FSET route both end with `withFields` of the zero word. -/
theorem fieldBuilderIsDirect : Obligations.FieldBuilderIsDirect := by
  unfold Obligations.FieldBuilderIsDirect
  intro s k sets hs hsets
  have hempty : ((written s (.fempty k)).setSt .ok).f.get k = ⟨0, .building, 0⟩ := Quad.get_set_same ..
  have hload : ((written s (.ffromraw k 0)).setSt .ok).f.get k = ⟨0, .built, 0⟩ := Quad.get_set_same ..
  obtain ⟨t, ht, htcell⟩ := (setsField_fbset k).completes (by rw [hempty]) hsets
  obtain ⟨u, hu, hucell⟩ := (setsField_fset k).completes (by rw [hload]) hsets
  rw [hempty] at htcell
  rw [hload] at hucell
  have hbuild : Completes s (.fempty k :: sets.map (fun p => .fbset k p.1 p.2) ++ [.fbuild k])
      ((written t (.fbuild k)).setSt .ok) :=
    .cons rfl (ht.append (.cons (by simp [ready, htcell]) .nil))
  have hdirect : Completes s (.ffromraw k 0 :: sets.map fun p => .fset k k p.1 p.2) u := .cons rfl hu
  have hbuilt : (written t (.fbuild k)).f.get k = ⟨withFields 0 sets, .built, 0⟩ := by
    simp [written, htcell]
  have hres : (written t (.fbuild k)).res = withFields 0 sets := by simp [written, htcell]
  have hraw := congrArg FCell.raw hbuilt
  refine ⟨_, _, hbuild.runFor_given hs (by simp), rfl, rfl, congrArg FCell.tag hbuilt,
    hres.trans hraw.symm, fun j hj => ?_, hdirect.runFor_given hs (by simp), hu.st_ok rfl, rfl,
    (congrArg FCell.raw hucell).trans hraw.symm⟩
  refine (congrArg (slot · j) hraw).trans ?_
  rw [slot_withFields 0 hsets hj, slot_zero]

/-! ## Slots of a chord (R152, R154) -/

/-- What FITER delivers, read back by position: the field (R104). -/
theorem seqBuffer_fieldsOf_getD (w : Raw64) {i : Nat} (hi : i < 16) :
    (seqBuffer (fieldsOf w)).toList.getD i 0 = (fieldOf w i).setWidth 8 := by
  refine BitVec.eq_of_toNat_eq ?_
  rw [BitVec.toNat_setWidth_of_le (by decide), ← seqBuffer_fieldsOf_toNat w (i := ⟨i, by omega⟩) hi]
  simp [List.getD_eq_getElem?_getD, show i < 32 by omega]

/-- CDEGREES gives the non-zero entries of FITER with their degree numbers (R104, R152). -/
theorem degreePairs_of_fiter (w : Raw64) : (degreePairs w).map BitVec.toNat =
    (List.range 16).flatMap fun i =>
      if (seqBuffer (fieldsOf w)).toList.getD i 0 = 0 then []
      else [i + 1, ((seqBuffer (fieldsOf w)).toList.getD i 0).toNat] := by
  rw [degreePairs, List.map_flatMap]
  refine List.flatMap_congr fun i hi => ?_
  have hi16 : i < 16 := (mem_positions i).mp hi
  have hzero : (fieldOf w i).setWidth 8 = (0 : Byte) ↔ fieldOf w i = 0 := by
    rw [← BitVec.toNat_inj, ← BitVec.toNat_inj, BitVec.toNat_setWidth_of_le (by decide)]
    rfl
  have hbyte : (byte (i + 1)).toNat = i + 1 := by
    rw [byte, BitVec.toNat_ofNat]
    omega
  rw [seqBuffer_fieldsOf_getD w hi16]
  by_cases h0 : fieldOf w i = 0
  · rw [if_pos h0, if_pos (hzero.mpr h0), List.map_nil]
  · rw [if_neg h0, if_neg (mt hzero.mp h0), List.map_cons, List.map_singleton, hbyte]

/-- Replacing a field by a value of at most `m` keeps every field at most `m`. -/
theorem slot_setfield_le {w : Raw64} {i m : Nat} {v : Byte} (hi : i < 16) (hv : v.toNat ≤ m)
    (hw : ∀ j < 16, slot w j ≤ m) : ∀ j < 16, slot (setfield w i v) j ≤ m := by
  intro j hj
  rw [slot_setfield w hi hj]
  split
  · exact (Nat.mod_le ..).trans hv
  · exact hw j hj

theorem slot_one_le (j : Nat) : slot 1 j ≤ 1 := (Nat.mod_le ..).trans (Nat.div_le_self ..)

/-- CSETDEG writes a valid code or leaves the registers alone (R151). -/
theorem csetdeg_slots_le {s t : State} {k : RegNo} {a c : Byte} (h : exec (.csetdeg k a c) s = .next t)
    (hs : ∀ j < 16, slot (s.f.get k).raw j ≤ 4) : ∀ j < 16, slot (t.f.get k).raw j ≤ 4 := by
  obtain ⟨hr, rfl⟩ | ⟨-, ⟨_, _, rfl⟩ | rfl⟩ := exec_next h
  · simp only [ready, Bool.and_eq_true, accidentalOk_iff, degreeOk_iff] at hr
    obtain ⟨⟨⟨-, hc⟩, -⟩, ha, ha16⟩ := hr
    simpa [written] using slot_setfield_le (by omega) hc hs
  · exact hs
  · exact hs

/-- Settles O58: the pairs are read off the delivered fields, and every slot starts and stays at most 4. -/
theorem chordSlotsAndCodes : Obligations.ChordSlotsAndCodes := by
  unfold Obligations.ChordSlotsAndCodes
  intro s t u k
  refine ⟨fun hb ht hu => ?pairs, fun n ht j _ => ?root, fun a c hs ht => csetdeg_slots_le ht hs,
    fun hs j hj h0 => ?code⟩
  case pairs =>
    obtain rfl := eq_of_exec_ready (by simp [ready, hb]) ht
    obtain rfl := eq_of_exec_ready (by simp [ready, hb]) hu
    have hd := setSeq_delivers_bytes s _ (degreePairs_length_le (s.f.get k).raw)
    rwa [degreePairs_of_fiter] at hd
  case root =>
    obtain rfl := eq_of_exec_ready rfl ht
    have hcell : ((written s (.cwithroot k n)).setSt .ok).f.get k = ⟨1, .building, n⟩ :=
      Quad.get_set_same ..
    rw [hcell]
    exact (slot_one_le j).trans (by decide)
  case code =>
    have h4 := hs j hj
    have hcode : (BitVec.ofNat 8 (slot (s.f.get k).raw j)).toNat = slot (s.f.get k).raw j := by
      rw [BitVec.toNat_ofNat]
      omega
    have hok : accidentalOk (BitVec.ofNat 8 (slot (s.f.get k).raw j)) = true := by
      rw [accidentalOk_iff, hcode]
      omega
    exact ⟨_, exec_ready hok, rfl⟩

end Sys2Proof.Machine
end

section
/-!
The statements of 42_packedpair4.md. Packing and the two nibbles are said once as arithmetic on the byte, and
a report after PPACK is read through the arithmetic of the byte that PPACK leaves.
-/

namespace Sys2Proof.Machine

/-! ## A byte and its nibbles (R27) -/

/-- Packing puts the second nibble above the first. -/
theorem packPair_toNat {x y : Byte} (hx : x.toNat < 16) (hy : y.toNat < 16) :
    (packPair x y).toNat = 16 * y.toNat + x.toNat := by
  have hkept : (y.toNat <<< 4) % 2 ^ 8 = y.toNat <<< 4 :=
    Nat.mod_eq_of_lt (by rw [Nat.shiftLeft_eq]; omega)
  rw [packPair, BitVec.toNat_or, BitVec.toNat_shiftLeft, hkept, ← Nat.shiftLeft_add_eq_or_of_lt hx,
    Nat.shiftLeft_eq, Nat.mul_comm]

theorem pairFirst_toNat (w : Byte) : (pairFirst w).toNat = w.toNat % 16 := by
  rw [pairFirst, extract_toNat, Nat.pow_zero, Nat.div_one]
  rfl

theorem pairSecond_toNat (w : Byte) : (pairSecond w).toNat = w.toNat / 16 := by
  rw [pairSecond, extract_toNat]
  exact Nat.mod_eq_of_lt (Nat.div_lt_of_lt_mul w.isLt)

/-! ## Checks and reports -/

/-- The range check of a nibble (R64) that fails. -/
theorem requireNibble_faulted {a : Byte} {s : State} {body : Result} (ha : 16 ≤ a.toNat) :
    requireElseFault (nibbleOk a) .operandRange a s body = .next (s.faulted 3 a.toNat) :=
  requireElseFault_faulted ((not_nibbleOk a).mpr ha)

/-- The range check of a nibble (R64) that passes. -/
theorem requireNibble_of_lt {a : Byte} {s : State} {body : Result} (ha : a.toNat < 16) :
    requireElseFault (nibbleOk a) .operandRange a s body = body := by
  rw [(nibbleOk_iff a).mpr ha, requireElseFault_true]

/-- PFIRST reports the low nibble's number (R121). -/
theorem written_pfirst (s : State) (rs : RegNo) :
    written s (.pfirst rs) = s.setRes (BitVec.ofNat 64 ((s.p.get rs).toNat % 16)) := by
  rw [← pairFirst_toNat, BitVec.ofNat_toNat]
  rfl

/-- PSECOND reports the high nibble's number (R122). -/
theorem written_psecond (s : State) (rs : RegNo) :
    written s (.psecond rs) = s.setRes (BitVec.ofNat 64 ((s.p.get rs).toNat / 16)) := by
  rw [← pairSecond_toNat, BitVec.ofNat_toNat]
  rfl

/-- PTORAW reports the byte's number (R123). -/
theorem written_ptoraw (s : State) (rs : RegNo) :
    written s (.ptoraw rs) = s.setRes (BitVec.ofNat 64 (s.p.get rs).toNat) := by
  rw [BitVec.ofNat_toNat]
  rfl

/-! ## One command -/

/-- Settles O38: the first operand is checked before the second, and the new byte is `packPair` of them. -/
theorem ppackPacks : Obligations.PpackPacks := by
  unfold Obligations.PpackPacks
  intro s rd a b
  refine ⟨wordOf_of_encode (fun _ => rfl), requireNibble_faulted,
    fun ha hb => (requireNibble_of_lt ha).trans (requireNibble_faulted hb),
    fun ha hb => exec_ready_eq (by simp [ready, ha, hb]) ?_⟩
  rw [← packPair_toNat ha hb, BitVec.ofNat_toNat, BitVec.setWidth_eq]
  rfl

/-- Settles O39: none of the three has a check, and each changes RES and ST alone. -/
theorem pairReads : Obligations.PairReads := by
  unfold Obligations.PairReads
  intro s rs
  exact ⟨wordOf_of_encode (fun _ => rfl), wordOf_of_encode (fun _ => rfl),
    wordOf_of_encode (fun _ => rfl),
    exec_ready_eq rfl (congrArg (State.setSt · .ok) (written_pfirst s rs)),
    exec_ready_eq rfl (congrArg (State.setSt · .ok) (written_psecond s rs)),
    exec_ready_eq rfl (congrArg (State.setSt · .ok) (written_ptoraw s rs))⟩

/-! ## PPACK and a report after it -/

/-- After PPACK of two nibbles, a command without checks leaves in RES what it reports of the packed byte. -/
theorem runFor_ppack_report {s : State} {k : RegNo} {x y : Byte} {i : Instr} {n : Nat}
    (hs : s.st ≠ .fault) (hx : x.toNat < 16) (hy : y.toNat < 16) (hi : ∀ u, ready u i = true)
    (hres : ∀ u : State, (u.p.get k).toNat = 16 * y.toNat + x.toNat → (written u i).res.toNat = n) :
    ∃ t, runFor 2 (s.given [.ppack k x y, i]) = .next t ∧ t.res.toNat = n := by
  have hrun : Completes s [.ppack k x y, i] _ := .cons (by simp [ready, hx, hy]) (.cons (hi _) .nil)
  have hbyte : (((written s (.ppack k x y)).setSt .ok).p.get k).toNat = 16 * y.toNat + x.toNat :=
    (congrArg BitVec.toNat (Quad.get_set_same ..)).trans (packPair_toNat hx hy)
  exact ⟨_, hrun.runFor_given hs rfl, hres _ hbyte⟩

/-- Settles O53: the packed byte is `16 * y + x`, whose remainder and quotient by 16 are `x` and `y`. -/
theorem packInvariant : Obligations.PackInvariant := by
  unfold Obligations.PackInvariant
  intro s k x y hs hx hy
  refine ⟨runFor_ppack_report hs hx hy (fun _ => rfl) fun u hu => ?first,
    runFor_ppack_report hs hx hy (fun _ => rfl) fun u hu => ?second,
    runFor_ppack_report hs hx hy (fun _ => rfl) fun u hu => ?byte⟩
  case first =>
    rw [written_pfirst, State.setRes_res, BitVec.toNat_ofNat, hu]
    omega
  case second =>
    rw [written_psecond, State.setRes_res, BitVec.toNat_ofNat, hu]
    omega
  case byte =>
    rw [written_ptoraw, State.setRes_res, BitVec.toNat_ofNat, hu]
    omega

end Sys2Proof.Machine
end

section
/-!
The statements of 43_scale.md. A word is read through its interval list `ivals`, which a word determines and
is determined by; both builder styles are runs of commands that leave `withIntervals` of the empty word.
-/

namespace Sys2Proof.Machine

/-! ## Members of a scale (R28) -/

/-- Setting bit `n - 1` adds interval `n` and no other. -/
theorem inScale_withBit (w : Raw16) {n : Nat} (hn : 1 ≤ n ∧ n ≤ 16) (m : Nat) :
    inScale (withBit w (n - 1)) m ↔ inScale w m ∨ m = n := by
  rw [inScale, isSet_withBit w (by omega)]
  constructor
  · rintro ⟨h1, h16, h | h⟩
    · exact .inl ⟨h1, h16, h⟩
    · exact .inr (by omega)
  · rintro (⟨h1, h16, h⟩ | rfl)
    · exact ⟨h1, h16, .inl h⟩
    · exact ⟨hn.1, hn.2, .inr rfl⟩

/-- Two words with one interval list are one word (R141). -/
theorem IntervalList.word_unique {v w : Raw16} {l : List Nat} (hv : IntervalList v l)
    (hw : IntervalList w l) : v = w := by
  refine raw16_ext fun i hi => ?_
  have hmem : inScale v (i + 1) ↔ inScale w (i + 1) := (hv.2 _).symm.trans (hw.2 _)
  simpa [hi] using hmem

theorem ivals_bounds (w : Raw16) : ∀ n ∈ ivals w, 1 ≤ n ∧ n ≤ 16 := by
  intro n hn
  obtain ⟨h1, h16, -⟩ := (mem_ivals w n).mp hn
  exact ⟨h1, h16⟩

/-- The word with these intervals added. -/
def withIntervals (w : Raw16) (ns : List Nat) : Raw16 := ns.foldl (fun v n => withBit v (n - 1)) w

theorem inScale_withIntervals (w : Raw16) {ns : List Nat} (hns : ∀ n ∈ ns, 1 ≤ n ∧ n ≤ 16) (m : Nat) :
    inScale (withIntervals w ns) m ↔ inScale w m ∨ m ∈ ns := by
  induction ns generalizing w with
  | nil => simp [withIntervals]
  | cons n ns ih =>
    obtain ⟨hn, hns⟩ := List.forall_mem_cons.mp hns
    calc inScale (withIntervals (withBit w (n - 1)) ns) m
      _ ↔ inScale (withBit w (n - 1)) m ∨ m ∈ ns := ih _ hns
      _ ↔ (inScale w m ∨ m = n) ∨ m ∈ ns := by rw [inScale_withBit w hn]
      _ ↔ inScale w m ∨ m ∈ n :: ns := by rw [List.mem_cons, or_assoc]

/-- The word built from an ascending list of intervals has that interval list. -/
theorem intervalList_withIntervals {ns : List Nat} (hasc : ns.Pairwise (· < ·))
    (hns : ∀ n ∈ ns, 1 ≤ n ∧ n ≤ 16) : IntervalList (withIntervals 0 ns) ns :=
  ⟨hasc, fun m => ((inScale_withIntervals 0 hns m).trans
    (or_iff_right fun h => not_isSet_zero _ h.2.2)).symm⟩

/-- A word is built from its own intervals. -/
theorem withIntervals_ivals (w : Raw16) : withIntervals 0 (ivals w) = w :=
  (intervalList_withIntervals (ivals_sorted w) (ivals_bounds w)).word_unique (ivals_intervalList w)

/-! ## Steps (R131) -/

/-- An ascending list of intervals ascends from the implicit 0 before it. -/
theorem pairwise_zero_cons {ns : List Nat} (hasc : ns.Pairwise (· < ·))
    (hns : ∀ n ∈ ns, 1 ≤ n ∧ n ≤ 16) : (0 :: ns).Pairwise (· < ·) :=
  List.pairwise_cons.mpr ⟨fun n hn => (hns n hn).1, hasc⟩

/-- The entry before entry `k`, as the statements write it. -/
theorem zero_cons_getD (l : List Nat) (k : Nat) :
    (0 :: l).getD k 0 = if k = 0 then 0 else l.getD (k - 1) 0 := by
  cases k <;> rfl

/-- Of an ascending list, each difference and the entry before it add up to the entry. -/
theorem differences_getD_add {l : List Nat} (hasc : l.Pairwise (· < ·)) {k : Nat} (hk : k < l.length) :
    (differences 0 l).getD k 0 + (if k = 0 then 0 else l.getD (k - 1) 0) = l.getD k 0 := by
  rw [differences_getD 0 l k hk, ← zero_cons_getD]
  refine Nat.sub_add_cancel ?_
  cases k with
  | zero => exact Nat.zero_le _
  | succ k => exact (sorted_getD hasc hk).le

/-- A list whose entries add up to `l` in this way is the list of its differences. -/
theorem eq_differences {l m : List Nat} (hlen : m.length = l.length)
    (h : ∀ j < l.length, m.getD j 0 + (if j = 0 then 0 else l.getD (j - 1) 0) = l.getD j 0) :
    m = differences 0 l := by
  refine List.ext_getElem (hlen.trans (differences_length 0 l).symm) fun j hm hd => ?_
  rw [← List.getD_eq_getElem m 0 hm, ← List.getD_eq_getElem _ 0 hd,
    differences_getD 0 l j (hlen ▸ hm), zero_cons_getD]
  exact Nat.eq_sub_of_add_eq (h j (hlen ▸ hm))

/-- The differences up to an entry, of a list that ascends from `p`, sum to what it is above `p`. -/
theorem add_sum_take_differences {p : Nat} {l : List Nat} (hasc : (p :: l).Pairwise (· < ·)) {j : Nat}
    (hj : j < l.length) : p + ((differences p l).take (j + 1)).sum = l.getD j 0 := by
  induction l generalizing p j with
  | nil => cases hj
  | cons n l ih =>
    obtain ⟨hp, hasc⟩ := List.pairwise_cons.mp hasc
    have hpn : p + (n - p) = n := Nat.add_sub_cancel' (hp n List.mem_cons_self).le
    cases j with
    | zero => simpa [differences] using hpn
    | succ j =>
      rw [differences, List.take_succ_cons, List.sum_cons, ← Nat.add_assoc, hpn, List.getD_cons_succ]
      exact ih hasc (Nat.lt_of_succ_lt_succ hj)

/-! ## Delivered lists, read back (R37) -/

section Delivers

variable {s : State} {l : List Nat} (h : Delivers s l)
include h

theorem Delivers.getD_toNat {j : Nat} (hj : j < 32) : (s.seq.toList.getD j 0).toNat = l.getD j 0 := by
  rw [← h.2 ⟨j, hj⟩]
  simp [List.getD_eq_getElem?_getD, hj]

theorem Delivers.take_toNat {n : Nat} (hn : n ≤ l.length) (hl : l.length ≤ 32) :
    (s.seq.toList.take n).map BitVec.toNat = l.take n := by
  refine List.ext_getElem (by simp; omega) fun j hs hj => ?_
  have hjn : j < n := (List.length_take_le n l).trans_lt' hj
  have hentry := h.getD_toNat (j := j) (by omega)
  rw [List.getD_eq_getElem _ _ (by simp; omega), List.getD_eq_getElem _ _ (by omega)] at hentry
  simpa using hentry

end Delivers

/-! ## What the reading commands deliver -/

section Reading

variable {s : State} {k : RegNo} (hb : (s.b.get k).tag = .built)
include hb

theorem sintervals_delivers : DeliversOk s (exec (.sintervals k) s) (ivals (s.b.get k).raw) :=
  deliversOk_of_setSeq (exec_ready (by simp [ready, hb]))
    (setSeq_delivers s _ ((ivals_length_le _).trans (by decide)) fun n hn =>
      (ivals_bounds _ n hn).2.trans_lt (by decide))

theorem ssteps_delivers : DeliversOk s (exec (.ssteps k) s) (stepsOf (s.b.get k).raw) :=
  deliversOk_of_setSeq (exec_ready (by simp [ready, hb]))
    (setSeq_delivers s _ ((stepsOf_length_le _).trans (by decide)) fun n hn =>
      (differences_le (fun v hv => (ivals_bounds _ v hv).2) n hn).trans_lt (by decide))

theorem sapply_delivers {a : Byte} (hfit : pitchesFit a.toNat (s.b.get k).raw = true) :
    DeliversOk s (exec (.sapply k a) s) (pitches a.toNat (s.b.get k).raw) := by
  refine deliversOk_of_setSeq (exec_ready (by simp [ready, hb, hfit]))
    (setSeq_delivers s _ ((pitches_length_le _ _).trans (by decide)) fun n hn => ?_)
  obtain rfl | hn := List.mem_cons.mp hn
  · exact a.isLt
  · obtain ⟨v, hv, rfl⟩ := List.mem_map.mp hn
    exact Nat.lt_succ_of_le ((pitchesFit_iff _ _).mp hfit v ((mem_ivals _ v).mp hv))

end Reading

/-! ## One command -/

/-- The range check of an interval or a total (R133, R134) that fails. -/
theorem requireInterval_faulted {n : Nat} {a : Byte} {s : State} {body : Result}
    (hn : ¬ (1 ≤ n ∧ n ≤ 16)) :
    requireElseFault (intervalOk n) .intervalRange a s body = .next (s.faulted 4 a.toNat) :=
  requireElseFault_faulted ((not_intervalOk n).mpr hn)

/-- Settles O40: the sequence is `ivals` of the word. -/
theorem sintervalsDelivers : Obligations.SintervalsDelivers := by
  unfold Obligations.SintervalsDelivers
  intro s rs
  exact ⟨wordOf_of_encode (fun _ => rfl), requireBuilt_faulted,
    fun hb => ⟨_, ivals_intervalList _, sintervals_delivers hb⟩⟩

/-- Settles O41: the sequence is `differences` of the interval list, which ascends, so that no difference is
cut off at 0. -/
theorem sstepsDelivers : Obligations.SstepsDelivers := by
  unfold Obligations.SstepsDelivers
  intro s rs
  exact ⟨wordOf_of_encode (fun _ => rfl), requireBuilt_faulted,
    fun hb => ⟨_, _, ivals_intervalList _, differences_length 0 _,
      fun _ hk => differences_getD_add (ivals_sorted _) hk, ssteps_delivers hb⟩⟩

/-- Settles O42: `pitchesFit` is the check of every sum, and the sequence is `pitches` of the word. -/
theorem sapplyDeliversPitches : Obligations.SapplyDeliversPitches := by
  unfold Obligations.SapplyDeliversPitches
  intro s rs a
  exact ⟨wordOf_of_encode (fun _ => rfl), requireBuilt_faulted,
    fun hb hover => (requireBuilt_of_built hb).trans
      (requireElseFault_faulted ((not_pitchesFit _ _).mpr hover)),
    fun hb hfit => ⟨_, ivals_intervalList _, sapply_delivers hb ((pitchesFit_iff _ _).mpr hfit)⟩⟩

/-- Settles O43: the new word is `withBit` of the old, at the interval's position. -/
theorem ssetintAddsInterval : Obligations.SsetintAddsInterval := by
  unfold Obligations.SsetintAddsInterval
  intro s rd a
  refine ⟨wordOf_of_encode (fun _ => rfl), requireBuilding_faulted,
    fun hb ha => (requireBuilding_of_building hb).trans (requireInterval_faulted ha),
    fun hb h1 h16 => ⟨_, inScale_withBit _ ⟨h1, h16⟩, exec_ready_eq (by simp [ready, hb, h1, h16]) ?_⟩⟩
  rw [← hb]
  rfl

/-- Settles O44: the new word is `withBit` of the old, at the position of the new total. -/
theorem saddstepAddsTotal : Obligations.SaddstepAddsTotal := by
  unfold Obligations.SaddstepAddsTotal
  rintro s rd a t rfl
  refine ⟨wordOf_of_encode (fun _ => rfl), requireBuilding_faulted,
    fun hb ht => (requireBuilding_of_building hb).trans (requireInterval_faulted ht),
    fun hb h1 h16 => ⟨_, inScale_withBit _ ⟨h1, h16⟩,
      exec_ready_eq (by simp [ready, hb, h1, h16]) ?_⟩⟩
  rw [← hb]
  rfl

/-! ## Building a scale (R133, R134) -/

/-- Commands that do not name a b register as their destination keep it. -/
theorem Completes.b_other {s t : State} {l : List Instr} {k : RegNo} (h : Completes s l t)
    (hl : ∀ i ∈ l, i.bDest ≠ some k) : t.b.get k = s.b.get k := by
  induction h with
  | nil => rfl
  | cons _ _ ih =>
    obtain ⟨hi, hl⟩ := List.forall_mem_cons.mp hl
    exact (ih hl).trans (written_b_other hi)

/-- The commands, run from `s`, complete and leave in register `k` a builder holding this word. -/
def Accumulates (s : State) (k : RegNo) (l : List Instr) (w : Raw16) : Prop :=
  ∃ t, Completes s l t ∧ (t.b.get k).tag = .building ∧ (t.b.get k).raw = w

theorem Accumulates.cons {s : State} {k : RegNo} {i : Instr} {l : List Instr} {w : Raw16}
    (hr : ready s i = true) (h : Accumulates ((written s i).setSt .ok) k l w) :
    Accumulates s k (i :: l) w := by
  obtain ⟨t, ht, hcell⟩ := h
  exact ⟨t, .cons hr ht, hcell⟩

/-- SSETINT of each interval, in order, adds them to the word. -/
theorem accumulates_ssetint {s : State} {k : RegNo} {ns : List Byte}
    (htag : (s.b.get k).tag = .building) (hns : ∀ n ∈ ns, 1 ≤ n.toNat ∧ n.toNat ≤ 16) :
    Accumulates s k (ns.map (.ssetint k)) (withIntervals (s.b.get k).raw (ns.map BitVec.toNat)) := by
  induction ns generalizing s with
  | nil => exact ⟨s, .nil, htag, rfl⟩
  | cons n ns ih =>
    obtain ⟨hn, hns⟩ := List.forall_mem_cons.mp hns
    have hcell : ((written s (.ssetint k n)).setSt .ok).b.get k
        = { s.b.get k with raw := withBit (s.b.get k).raw (n.toNat - 1) } := Quad.get_set_same ..
    have hrest := ih (s := (written s (.ssetint k n)).setSt .ok) (by rw [hcell]; exact htag) hns
    rw [hcell] at hrest
    exact .cons (by simp [ready, htag, hn]) hrest

/-- SADDSTEP of the steps of a list that ascends from the running total adds the list to the word: each
step moves the total to the next interval. -/
theorem accumulates_saddstep {s : State} {k : RegNo} {ns : List Nat} {ds : List Byte}
    (htag : (s.b.get k).tag = .building)
    (hasc : ((s.b.get k).acc.toNat :: ns).Pairwise (· < ·)) (hns : ∀ n ∈ ns, 1 ≤ n ∧ n ≤ 16)
    (hds : ds.map BitVec.toNat = differences (s.b.get k).acc.toNat ns) :
    Accumulates s k (ds.map (.saddstep k)) (withIntervals (s.b.get k).raw ns) := by
  induction ns generalizing s ds with
  | nil =>
    obtain rfl := List.map_eq_nil_iff.mp hds
    exact ⟨s, .nil, htag, rfl⟩
  | cons n ns ih =>
    obtain ⟨hn, hns⟩ := List.forall_mem_cons.mp hns
    obtain ⟨hacc, hasc⟩ := List.pairwise_cons.mp hasc
    obtain ⟨d, ds, rfl, hd, hds⟩ := List.map_eq_cons_iff.mp hds
    have hsum : (s.b.get k).acc.toNat + d.toNat = n := by
      rw [hd, Nat.add_sub_cancel' (hacc n List.mem_cons_self).le]
    have hcell : ((written s (.saddstep k d)).setSt .ok).b.get k
        = ⟨withBit (s.b.get k).raw (n - 1), .building, BitVec.ofNat 5 n⟩ := by
      rw [← hsum, ← htag]
      exact Quad.get_set_same ..
    have htotal : (BitVec.ofNat 5 n).toNat = n := by
      rw [BitVec.toNat_ofNat]
      omega
    have hrest := ih (s := (written s (.saddstep k d)).setSt .ok) (ds := ds)
      (by rw [hcell]) (by rwa [hcell, htotal]) hns (by rwa [hcell, htotal])
    rw [hcell] at hrest
    exact .cons (by simp [ready, htag, hsum, hn]) hrest

/-- A builder started empty, filled by these commands and finished holds their word. -/
theorem completes_scaleBuilder {k : RegNo} {l : List Instr} {w : Raw16} (s : State)
    (hl : ∀ u : State, u.b.get k = ⟨0, .building, 0⟩ → Accumulates u k l w) :
    ∃ t, Completes s (.bempty k :: l ++ [.bbuild k]) t ∧ t.st = .ok ∧ (t.b.get k).raw = w := by
  obtain ⟨t, ht, htag, hraw⟩ := hl ((written s (.bempty k)).setSt .ok) (Quad.get_set_same ..)
  have hcell : ((written t (.bbuild k)).setSt .ok).b.get k = { t.b.get k with tag := .built } :=
    Quad.get_set_same ..
  exact ⟨_, .cons rfl (ht.append (.cons (by simp [ready, htag]) .nil)), rfl, by rw [hcell]; exact hraw⟩

/-- The absolute-interval builder (R133). -/
theorem completes_intervalBuilder (s : State) (k : RegNo) {ns : List Byte}
    (hns : ∀ n ∈ ns, 1 ≤ n.toNat ∧ n.toNat ≤ 16) :
    ∃ t, Completes s (.bempty k :: ns.map (.ssetint k) ++ [.bbuild k]) t ∧ t.st = .ok ∧
      (t.b.get k).raw = withIntervals 0 (ns.map BitVec.toNat) :=
  completes_scaleBuilder s fun u hu => by
    have hset := accumulates_ssetint (s := u) (k := k) (by rw [hu]) hns
    rwa [hu] at hset

/-- The relative-step builder (R134). -/
theorem completes_stepBuilder (s : State) (k : RegNo) {ns : List Nat} {ds : List Byte}
    (hasc : ns.Pairwise (· < ·)) (hns : ∀ n ∈ ns, 1 ≤ n ∧ n ≤ 16)
    (hds : ds.map BitVec.toNat = differences 0 ns) :
    ∃ t, Completes s (.bempty k :: ds.map (.saddstep k) ++ [.bbuild k]) t ∧ t.st = .ok ∧
      (t.b.get k).raw = withIntervals 0 ns :=
  completes_scaleBuilder s fun u hu => by
    have hadd := accumulates_saddstep (s := u) (k := k) (by rw [hu])
      (by rw [hu]; exact pairwise_zero_cons hasc hns) hns (by rw [hu]; exact hds)
    rwa [hu] at hadd

/-! ## Several commands -/

/-- Settles O56: both builders end with `withIntervals` of the empty word, and the second leaves the register
of the first alone. -/
theorem scaleBuildersAgree : Obligations.ScaleBuildersAgree := by
  unfold Obligations.ScaleBuildersAgree
  intro s x y ns ds hs hxy hasc hns hlen hstep
  have hns' : ∀ n ∈ ns.map BitVec.toNat, 1 ≤ n ∧ n ≤ 16 := List.forall_mem_map.mpr hns
  have hds : ds.map BitVec.toNat = differences 0 (ns.map BitVec.toNat) := by
    refine eq_differences (by simp [hlen]) fun j hj => ?_
    have hget (l : List Byte) (i : Nat) : (l.map BitVec.toNat).getD i 0 = (l.getD i 0).toNat :=
      List.getD_map l 0 BitVec.toNat
    simpa only [hget] using hstep j (by simpa using hj)
  obtain ⟨t, ht, -, htx⟩ := completes_intervalBuilder s x hns
  obtain ⟨u, hu, hust, huy⟩ := completes_stepBuilder t y hasc hns' hds
  have hyx : some y ≠ some x := by simpa using hxy.symm
  have hkept : u.b.get x = t.b.get x := hu.b_other <|
    List.forall_mem_cons.mpr ⟨hyx, List.forall_mem_append.mpr
      ⟨List.forall_mem_map.mpr fun _ _ => hyx, List.forall_mem_singleton.mpr hyx⟩⟩
  have hux : (u.b.get x).raw = withIntervals 0 (ns.map BitVec.toNat) := by rw [hkept, htx]
  refine ⟨_, (ht.append hu).runFor_given hs (by simp; omega), hust, rfl, hux.trans huy.symm, ?_⟩
  exact hux ▸ intervalList_withIntervals hasc hns'

/-- What SAPPLY delivers when it completes, beside the intervals SINTERVALS delivers (R132). -/
theorem sapply_entries {s v w : State} {k : RegNo} {a : Byte} (hb : (s.b.get k).tag = .built)
    (hv : Delivers v (ivals (s.b.get k).raw)) (hw : exec (.sapply k a) s = .next w) (hok : w.st = .ok) :
    w.slen.toNat = v.slen.toNat + 1 ∧ ∀ j < w.slen.toNat, (w.seq.toList.getD j 0).toNat
      = a.toNat + if j = 0 then 0 else (v.seq.toList.getD (j - 1) 0).toNat := by
  obtain ⟨hr, -⟩ := exec_completed hw hok
  obtain ⟨-, hfit⟩ := (Bool.and_eq_true _ _).mp hr
  obtain ⟨w', hw', hd, -⟩ := sapply_delivers hb hfit
  obtain rfl := Host_next_inj.mp (hw'.symm.trans hw)
  have h16 := ivals_length_le (s.b.get k).raw
  have hlen : w'.slen.toNat = (ivals (s.b.get k).raw).length + 1 := by
    rw [hd.1, pitches, List.length_cons, List.length_map]
  refine ⟨by rw [hlen, hv.1], fun j hj => ?_⟩
  rw [hd.getD_toNat (by omega), pitches]
  cases j with
  | zero => rfl
  | succ j =>
    have hj' : j < (ivals (s.b.get k).raw).length := by omega
    rw [List.getD_cons_succ, if_neg j.succ_ne_zero, Nat.add_sub_cancel, hv.getD_toNat (by omega)]
    simp [List.getD_eq_getElem?_getD, hj']

/-- Settles O57: the steps are the differences of the intervals, so their sums are the intervals again, and the
step builder fed with them ends with `withIntervals` of the word's own intervals. -/
theorem stepsAndIntervalsAgree : Obligations.StepsAndIntervalsAgree := by
  unfold Obligations.StepsAndIntervalsAgree
  intro s k d hs hb
  obtain ⟨u, hu, hsteps, hueq⟩ := ssteps_delivers hb
  obtain ⟨v, hv, hivals, -⟩ := sintervals_delivers hb
  have hlen : (stepsOf (s.b.get k).raw).length = (ivals (s.b.get k).raw).length := differences_length 0 _
  have h16 := ivals_length_le (s.b.get k).raw
  have hasc := ivals_sorted (s.b.get k).raw
  have hds : (u.seq.toList.take u.slen.toNat).map BitVec.toNat = stepsOf (s.b.get k).raw := by
    rw [hsteps.1, hsteps.take_toNat le_rfl (by omega), List.take_length]
  obtain ⟨t, ht, htst, htraw⟩ := completes_stepBuilder u d hasc (ivals_bounds _) hds
  refine ⟨u, v, _, hu, hv, ?slen, fun j hj => ?sums, fun a w hw hok => sapply_entries hb hivals hw hok,
    ht.runFor_given (by rw [hueq]; nofun) ?program, htst, rfl, htraw.trans (withIntervals_ivals _)⟩
  case slen => exact BitVec.eq_of_toNat_eq (by rw [hsteps.1, hivals.1, hlen])
  case sums =>
    rw [hivals.1] at hj
    rw [hivals.getD_toNat (by omega), hsteps.take_toNat (by omega) (by omega),
      ← add_sum_take_differences (pairwise_zero_cons hasc (ivals_bounds _)) hj, Nat.zero_add, stepsOf]
  case program =>
    have hcount := congrArg List.length hds
    rw [List.length_map, ← hsteps.1] at hcount
    simp [hcount, -List.length_take, -List.map_take]

end Sys2Proof.Machine
end

section
/-!
The statements of 44_chord.md, but for the one about what FITER delivers. A chord is read slot by slot, and
CDEGREES through the list `pairsOf` of its word.
-/

namespace Sys2Proof.Machine

/-! ## Checks of a code or a degree (R64) -/

/-- A decode check that fails (R176). -/
theorem requireElseDecodeFail_failed {ok : Bool} {s : State} {body : Result} (h : ok = false) :
    requireElseDecodeFail ok s body = .next { s with st := .decodeFail } := by
  rw [h, requireElseDecodeFail_false, failDecode_eq]
  rfl

/-- The decode check of an accidental code that fails. -/
theorem requireAccidental_failed {c : Byte} {s : State} {body : Result}
    (hc : ¬ (1 ≤ c.toNat ∧ c.toNat ≤ 4)) :
    requireElseDecodeFail (accidentalOk c) s body = .next { s with st := .decodeFail } :=
  requireElseDecodeFail_failed ((not_accidentalOk c).mpr hc)

/-- The decode check of an accidental code that passes. -/
theorem requireAccidental_of_valid {c : Byte} {s : State} {body : Result} (h1 : 1 ≤ c.toNat)
    (h4 : c.toNat ≤ 4) : requireElseDecodeFail (accidentalOk c) s body = body := by
  rw [(accidentalOk_iff c).mpr ⟨h1, h4⟩, requireElseDecodeFail_true]

/-- The range check of a degree that fails. -/
theorem requireDegree_faulted {a : Byte} {s : State} {body : Result}
    (ha : ¬ (1 ≤ a.toNat ∧ a.toNat ≤ 16)) :
    requireElseFault (degreeOk a) .degreeRange a s body = .next (s.faulted 5 a.toNat) :=
  requireElseFault_faulted ((not_degreeOk a).mpr ha)

/-! ## Slots of a chord (R150 to R152) -/

/-- CWITHROOT's word has no degree but the first. -/
theorem slot_one_of_ne_zero {j : Nat} (hj : j ≠ 0) : slot 1 j = 0 := by
  have hdiv : 1 / 16 ^ j = 0 := Nat.div_eq_of_lt (Nat.one_lt_pow hj (by decide))
  exact congrArg (· % 16) hdiv

/-- A valid code is written as it is: the mask of a field write (R115) keeps it. -/
theorem slot_setfield_code (w : Raw64) {a c : Byte} (hc : c.toNat ≤ 4) (h1 : 1 ≤ a.toNat)
    (h16 : a.toNat ≤ 16) {j : Nat} (hj : j < 16) :
    slot (setfield w (a.toNat - 1) c) j = if j = a.toNat - 1 then c.toNat else slot w j := by
  rw [slot_setfield w (by omega) hj, Nat.mod_eq_of_lt (by omega)]

/-- The numbers in the pairs are degrees and codes. -/
theorem pairsOf_entries_le (w : Raw64) : ∀ n ∈ (pairsOf w).flatMap fun x => [x.1, x.2], n ≤ 16 := by
  intro n hn
  obtain ⟨⟨d, v⟩, hp, hn⟩ := List.mem_flatMap.mp hn
  obtain ⟨-, hd, hv, -⟩ := (mem_pairsOf w d v).mp hp
  have hlt := slot_lt w (d - 1)
  obtain rfl | rfl : n = d ∨ n = v := by simpa using hn
  · exact hd
  · omega

/-- What CDEGREES writes delivers the pairs. -/
theorem setSeq_degreePairs_delivers (s : State) (w : Raw64) :
    Delivers (s.setSeq (degreePairs w)) ((pairsOf w).flatMap fun x => [x.1, x.2]) := by
  have hlen := degreePairs_length_le w
  rw [degreePairs_eq, List.length_map] at hlen
  rw [degreePairs_eq]
  exact setSeq_delivers s _ hlen fun n hn => (pairsOf_entries_le w n hn).trans_lt (by decide)

/-! ## One command -/

/-- The name handle of CWITHROOT stands in the two operand bytes, high byte first (R62). -/
theorem wordOf_cwithroot (rd : RegNo) (n : Name16) :
    WordOf (.cwithroot rd n) 0x50 rd.num 0 (n.toNat / 256) (n.toNat % 256) := by
  have hhi : (n.extractLsb' 8 8).toNat = n.toNat / 256 :=
    (extract_toNat ..).trans (Nat.mod_eq_of_lt (Nat.div_lt_of_lt_mul n.isLt))
  refine wordOf_of_encode (fun _ => rfl) ?_
  rw [hhi]
  simp [RegNo.bits_toNat]

/-- Settles O46: the checks pass one by one in the order of R151, and the new word is `setfield` of the
builder's, at the degree's slot. -/
theorem csetdegSetsDegree : Obligations.CsetdegSetsDegree := by
  unfold Obligations.CsetdegSetsDegree
  intro s rd a c
  refine ⟨wordOf_of_encode (fun _ => rfl), requireAccidental_failed,
    fun h1 h4 hb => (requireAccidental_of_valid h1 h4).trans (requireBuilding_faulted hb),
    fun h1 h4 hb ha => (requireAccidental_of_valid h1 h4).trans
      ((requireBuilding_of_building hb).trans (requireDegree_faulted ha)),
    fun h1 h4 hb ha1 ha16 => ⟨_, fun _ hj => slot_setfield_code _ h4 ha1 ha16 hj,
      exec_ready_eq (by simp [ready, h1, h4, hb, ha1, ha16]) ?_⟩⟩
  rw [← hb]
  rfl

/-- Settles O47: the sequence is `pairsOf` of the word, flattened. -/
theorem cdegreesDeliversPairs : Obligations.CdegreesDeliversPairs := by
  unfold Obligations.CdegreesDeliversPairs
  intro s rs
  exact ⟨wordOf_of_encode (fun _ => rfl), requireBuilt_faulted,
    fun hb => ⟨_, pairsOf_sorted _, mem_pairsOf _,
      deliversOk_of_setSeq (exec_ready (by simp [ready, hb])) (setSeq_degreePairs_delivers s _)⟩⟩

/-- Settles O45: the command has no check, and its word is 1. -/
theorem cwithrootStartsChord : Obligations.CwithrootStartsChord := by
  unfold Obligations.CwithrootStartsChord
  intro s rd n
  exact ⟨wordOf_cwithroot rd n, 1, rfl, fun _ _ hj => slot_one_of_ne_zero hj, rfl⟩

/-- Settles O48: RES takes the handle at a greater width. -/
theorem cnameReportsHandle : Obligations.CnameReportsHandle := by
  unfold Obligations.CnameReportsHandle
  intro s rs
  refine ⟨wordOf_of_encode (fun _ => rfl), requireBuilt_faulted,
    fun hb => exec_ready_eq (by simp [ready, hb]) ?_⟩
  rw [BitVec.ofNat_toNat]
  rfl

/-- ACCDEC and DEGDEC report their operand at a greater width. -/
theorem setRes_operand_done (s : State) (a : Byte) :
    (s.setRes (a.setWidth 64)).setSt .ok = { s with res := BitVec.ofNat 64 a.toNat }.done := by
  rw [BitVec.ofNat_toNat]
  rfl

/-- Settles O49: each decoder has its range check and no other. -/
theorem codeDecoders : Obligations.CodeDecoders := by
  unfold Obligations.CodeDecoders
  intro s a
  exact ⟨wordOf_of_encode (fun _ => rfl), wordOf_of_encode (fun _ => rfl), requireAccidental_failed,
    fun h1 h4 => exec_ready_eq ((accidentalOk_iff a).mpr ⟨h1, h4⟩) (setRes_operand_done s a),
    fun ha => requireElseDecodeFail_failed ((not_degreeOk a).mpr ha),
    fun h1 h16 => exec_ready_eq ((degreeOk_iff a).mpr ⟨h1, h16⟩) (setRes_operand_done s a)⟩

end Sys2Proof.Machine
end

section
/-!
The statements of 60_exceptions.md. A command is a chain of checks around one completed state, so what a fault
or a decode failure says of the command is read off its chain, one lemma per check.
-/

namespace Sys2Proof.Machine

/-! ## The halted unit (R173) -/

/-- A halted unit that is not reset only loses the host's next event. -/
theorem step_halted_tail {s : State} (hs : s.st = .fault) (hcmd : ∀ e ∈ s.host, e ≠ .reset) :
    step s = .next { s with host := s.host.tail } := by
  cases hh : s.host with
  | nil =>
    rw [step_nil hh, List.tail_nil, ← hh]
  | cons e rest =>
    cases e with
    | present c => exact step_halted hh hs
    | reset => exact absurd rfl (hcmd .reset (by simp [hh]))

/-- Settles O10, by induction on the number of steps. -/
theorem haltedUntilReset : Obligations.HaltedUntilReset := by
  unfold Obligations.HaltedUntilReset
  intro n
  induction n with
  | zero => exact fun _ _ _ => rfl
  | succ n ih =>
    intro s hs hcmd
    rw [runFor_succ n (step_halted_tail hs hcmd),
      ih { s with host := s.host.tail } hs fun e he => hcmd e (List.mem_of_mem_tail he), List.drop_tail]

/-! ## Entering FAULT (R172) -/

/-- A command that faults writes the fault record and nothing else. -/
theorem exec_fault {i : Instr} {s t : State} (h : exec i s = .next t) (ht : t.st = .fault) :
    ∃ c v, t = s.enterFault c v := by
  obtain ⟨-, rfl⟩ | ⟨-, hf | rfl⟩ := exec_next h
  · cases ht
  · exact hf
  · cases ht

/-- Whatever the host does, a unit that becomes halted by it has written the fault record and nothing else. -/
theorem runEvent_fault {e : HostEvent} {s t : State} (hs : s.st ≠ .fault) (h : runEvent e s = .next t)
    (ht : t.st = .fault) : ∃ c v, t = s.enterFault c v := by
  cases e with
  | reset =>
    obtain rfl := Host_next_inj.mp h
    cases ht
  | present c =>
    obtain ⟨hf, -⟩ | ⟨-, hp⟩ | ⟨-, i, hp⟩ := present_outcome c s
    · exact absurd hf hs
    · exact ⟨.illegalCommand, c.op, (Host_next_inj.mp (hp.symm.trans h)).symm⟩
    · exact exec_fault (hp.symm.trans h) ht

/-- Settles O19, by cases on the host's list: only an event can halt the unit. -/
theorem faultEntry : Obligations.FaultEntry := by
  unfold Obligations.FaultEntry
  intro s t hs h ht
  cases hh : s.host with
  | nil =>
    obtain rfl := Host_next_inj.mp ((step_nil hh).symm.trans h)
    exact absurd ht hs
  | cons e rest =>
    obtain ⟨c, v, rfl⟩ :=
      runEvent_fault (s := { s with host := rest }) hs ((step_cons hh).symm.trans h) ht
    obtain ⟨hlo, hhi⟩ := code_bounds c
    exact ⟨c.code.toNat, v.toNat, hlo, hhi, v.isLt, enterFault_eq_faulted ..⟩

/-! ## Decode failure (R176) -/

/-- The command ends with ST at DECODE_FAIL. -/
def FailsDecode (r : Result) : Prop := ∃ t, r = .next t ∧ t.st = .decodeFail

section

variable {s : State} {r : Result} {g : Tag} {k : RegNo} {ok : Bool} {c : Cause} {v : Byte}

theorem not_failsDecode_complete (w : State) : ¬ FailsDecode (complete w) := by
  rintro ⟨_, ⟨⟩, ⟨⟩⟩

theorem not_failsDecode_raiseFault : ¬ FailsDecode (raiseFault c v s) := by
  rintro ⟨_, ⟨⟩, ⟨⟩⟩

theorem not_failsDecode_requireBuilt (h : ¬ FailsDecode r) : ¬ FailsDecode (requireBuilt g k s r) := by
  cases g with
  | built => exact h
  | building => exact not_failsDecode_raiseFault

theorem not_failsDecode_requireBuilding (h : ¬ FailsDecode r) :
    ¬ FailsDecode (requireBuilding g k s r) := by
  cases g with
  | built => exact not_failsDecode_raiseFault
  | building => exact h

theorem not_failsDecode_requireElseFault (h : ¬ FailsDecode r) :
    ¬ FailsDecode (requireElseFault ok c v s r) := by
  cases ok with
  | true => exact h
  | false => exact not_failsDecode_raiseFault

/-- A decode check fails decode exactly when its condition does not hold. -/
theorem failsDecode_requireElseDecodeFail_iff (h : ¬ FailsDecode r) :
    FailsDecode (requireElseDecodeFail ok s r) ↔ ok = false := by
  cases ok with
  | true => exact iff_of_false h nofun
  | false => exact iff_of_true ⟨_, rfl, rfl⟩ rfl

end

/-- A command that fails decode writes ST and nothing else. -/
theorem exec_decodeFail {i : Instr} {s t : State} (h : exec i s = .next t) (ht : t.st = .decodeFail) :
    t = s.setSt .decodeFail := by
  obtain ⟨-, rfl⟩ | ⟨-, ⟨c, v, rfl⟩ | rfl⟩ := exec_next h
  · cases ht
  · cases ht
  · rfl

/-- Settles O21: CSETDEG, ACCDEC and DEGDEC start with a decode check, and no other command has one. -/
theorem decodeFailure : Obligations.DecodeFailure := by
  unfold Obligations.DecodeFailure
  intro i s
  refine ⟨fun t => exec_decodeFail, ?_⟩
  have hcomplete := not_failsDecode_complete
  cases i with
  | csetdeg _ _ c =>
    exact (failsDecode_requireElseDecodeFail_iff (not_failsDecode_requireBuilding
      (not_failsDecode_requireElseFault (hcomplete _)))).trans (not_accidentalOk c)
  | accdec c =>
    exact (failsDecode_requireElseDecodeFail_iff (hcomplete _)).trans (not_accidentalOk c)
  | degdec n => exact (failsDecode_requireElseDecodeFail_iff (hcomplete _)).trans (not_degreeOk n)
  | bfromraw | bempty | ffromraw | fempty | pfirst | psecond | ptoraw | pmov | cwithroot =>
    exact iff_of_false (hcomplete _) id
  | btoraw | biter | bidxt | bidxf | bmov | sintervals | ssteps | ftoraw | fiter | fmov | cdegrees
  | cname => exact iff_of_false (not_failsDecode_requireBuilt (hcomplete _)) id
  | bbuild | fbuild => exact iff_of_false (not_failsDecode_requireBuilding (hcomplete _)) id
  | bget | fget | fset | sapply =>
    exact iff_of_false (not_failsDecode_requireBuilt (not_failsDecode_requireElseFault (hcomplete _))) id
  | bsetidx | fbset | ssetint | saddstep =>
    exact iff_of_false
      (not_failsDecode_requireBuilding (not_failsDecode_requireElseFault (hcomplete _))) id
  | ppack =>
    exact iff_of_false
      (not_failsDecode_requireElseFault (not_failsDecode_requireElseFault (hcomplete _))) id

/-! ## The causes of faults (R171, R177) -/

section

variable {s t w : State} {r : Result} {g : Tag} {k : RegNo} {ok : Bool} {c : Cause} {v : Byte}
  {P Q : Prop}

/-- A command that comes to `require_built` faults there, or has a Built register and goes on. -/
theorem requireBuilt_faulted_or (hr : r = .next t → P) (h : requireBuilt g k s r = .next t) :
    (g = .building ∧ t = s.faulted 6 k.num) ∨ (g = .built ∧ P) := by
  cases g with
  | built => exact .inr ⟨rfl, hr h⟩
  | building => exact .inl ⟨rfl, Host_next_inj.mp (h.symm.trans (requireBuilt_faulted rfl))⟩

/-- A command that comes to `require_building` faults there, or has a Building register and goes on. -/
theorem requireBuilding_faulted_or (hr : r = .next t → P) (h : requireBuilding g k s r = .next t) :
    (g = .built ∧ t = s.faulted 6 k.num) ∨ (g = .building ∧ P) := by
  cases g with
  | built => exact .inl ⟨rfl, Host_next_inj.mp (h.symm.trans (requireBuilding_faulted rfl))⟩
  | building => exact .inr ⟨rfl, hr h⟩

/-- A command that comes to a check of a condition faults there, or meets the condition and goes on. -/
theorem requireElseFault_faulted_or (hr : r = .next t → P) (h : requireElseFault ok c v s r = .next t) :
    (ok = false ∧ t = s.faulted c.code.toNat v.toNat) ∨ (ok = true ∧ P) := by
  cases ok with
  | true => exact .inr ⟨rfl, hr h⟩
  | false => exact .inl ⟨rfl, Host_next_inj.mp (h.symm.trans (requireElseFault_faulted rfl))⟩

variable (ht : t.st = .fault)
include ht

/-- A command past its last check does not fault. -/
theorem complete_not_fault (h : complete w = .next t) : False := by
  obtain rfl := Host_next_inj.mp h
  cases ht

/-- A fault of a command whose last check is `require_built`. -/
theorem requireBuilt_last (h : requireBuilt g k s (complete w) = .next t) :
    g = .building ∧ t = s.faulted 6 k.num :=
  (requireBuilt_faulted_or (complete_not_fault ht) h).resolve_right And.right

/-- A fault of a command whose last check is `require_building`. -/
theorem requireBuilding_last (h : requireBuilding g k s (complete w) = .next t) :
    g = .built ∧ t = s.faulted 6 k.num :=
  (requireBuilding_faulted_or (complete_not_fault ht) h).resolve_right And.right

/-- A fault of a command whose last check is of a condition that fails as `Q` says. -/
theorem requireElseFault_last (hq : ok = false ↔ Q)
    (h : requireElseFault ok c v s (complete w) = .next t) :
    Q ∧ t = s.faulted c.code.toNat v.toNat :=
  ((requireElseFault_faulted_or (complete_not_fault ht) h).resolve_right And.right).imp_left hq.mp

/-- A command that faults has passed its decode check. -/
theorem requireElseDecodeFail_passed (h : requireElseDecodeFail ok s r = .next t) :
    ok = true ∧ r = .next t := by
  obtain hpass | ⟨-, rfl⟩ := requireElseDecodeFail_next h
  · exact hpass
  · cases ht

end

/-- Settles O24: each command's chain of checks, in the order of R177. -/
theorem faultCauses : Obligations.FaultCauses := by
  unfold Obligations.FaultCauses
  intro i s t h ht
  cases i with
  | bfromraw | bempty | ffromraw | fempty | pfirst | psecond | ptoraw | pmov | cwithroot =>
    exact complete_not_fault ht h
  | accdec | degdec =>
    obtain ⟨-, h⟩ := requireElseDecodeFail_passed ht h
    exact complete_not_fault ht h
  | btoraw | biter | bidxt | bidxf | bmov | sintervals | ssteps | ftoraw | fiter | fmov | cdegrees
  | cname => exact requireBuilt_last ht h
  | bbuild | fbuild => exact requireBuilding_last ht h
  | bget _ a | fget _ a | fset _ _ a =>
    exact requireBuilt_faulted_or (requireElseFault_last ht (not_indexOk a)) h
  | bsetidx _ a | fbset _ a =>
    exact requireBuilding_faulted_or (requireElseFault_last ht (not_indexOk a)) h
  | sapply _ a =>
    exact requireBuilt_faulted_or (requireElseFault_last ht (not_pitchesFit ..)) h
  | ssetint _ a =>
    exact requireBuilding_faulted_or (requireElseFault_last ht (not_intervalOk a.toNat)) h
  | saddstep _ a =>
    exact requireBuilding_faulted_or (requireElseFault_last ht (not_intervalOk _)) h
  | ppack _ a b =>
    obtain ⟨ha, hf⟩ | ⟨ha, hb⟩ :=
      requireElseFault_faulted_or (requireElseFault_last ht (not_nibbleOk b)) h
    · exact .inl ⟨(not_nibbleOk a).mp ha, hf⟩
    · exact .inr ⟨(nibbleOk_iff a).mp ha, hb⟩
  | csetdeg _ a c =>
    obtain ⟨hc, h⟩ := requireElseDecodeFail_passed ht h
    exact ⟨(accidentalOk_iff c).mp hc,
      requireBuilding_faulted_or (requireElseFault_last ht (not_degreeOk a)) h⟩

end Sys2Proof.Machine
end

section
/-!
The statements of 70_reset_and_hazards.md. Every step answers with a state and takes one event off the host's
list, so a run is as long as that list, and what every step keeps holds where the run ends.
-/

namespace Sys2Proof.Machine

/-! ## Runs (R198, R199) -/

/-- From a state that meets the invariant, any number of steps, whatever the host does in them, answers such a
state with that many of the host's events gone. -/
theorem runFor_inv (n : Nat) {s : State} (hi : Inv s) :
    ∃ t, runFor n s = .next t ∧ t.host = s.host.drop n ∧ Inv t := by
  induction n generalizing s with
  | zero => exact ⟨s, runFor_zero s, rfl, hi⟩
  | succ n ih =>
    obtain ⟨u, hstep, hhost, -⟩ := everyStepAnswersNext s
    obtain ⟨t, hrun, hdrop, ht⟩ := ih (stepKeepsInvariant s u hi hstep)
    exact ⟨t, (runFor_succ n hstep).trans hrun, by rw [hdrop, hhost, List.drop_tail], ht⟩

/-- A run starts where reset leaves the unit, with the host's list its only other content. -/
theorem start_atReset (l : List Command) : AtReset (State.start l) := reset_atReset

@[simp] theorem start_host (l : List Command) : (State.start l).host = l.map .present := rfl

@[simp] theorem ended_iff (s : State) : s.ended = true ↔ s.host = [] := List.isEmpty_iff

/-- Settles O15: after as many steps as there are commands the host's list is used up. -/
theorem runOfCommandsEnds : Obligations.RunOfCommandsEnds := by
  unfold Obligations.RunOfCommandsEnds
  intro l
  obtain ⟨t, hrun, hhost, ht⟩ := runFor_inv l.length (inv_of_atReset (start_atReset l))
  have hempty : t.host = [] := by simp [hhost]
  exact ⟨t, hrun, (ended_iff t).mpr hempty, ht⟩

end Sys2Proof.Machine
end
